-- ==== Sys2Proof/Word.lean ====
section
/-! DEFINITION. The word types of the block: bytes, nibbles and the request word. -/

namespace Sys2Proof

/-- A byte, an unsigned integer 0 to 255 (00_scope.md R1). Bit `n` in value numbering is `getLsbD n` (R2). -/
abbrev Byte := BitVec 8

/-- A four-bit field of the request word: `OP` or `VLEN` (30_encoding.md R50). -/
abbrev Nibble := BitVec 4

/-- The request word `REQ[39:0]` (30_encoding.md R50). -/
abbrev Request := BitVec 40

end Sys2Proof
end

