-- ==== Sys2Proof/Syntax.lean ====
section
/-! DEFINITION. The eight operations of the block as data: descriptors, bit-strings, `Instr`, and the raw fields of a request word. -/

namespace Sys2Proof

/-- A field descriptor `fd(i,w)` (10_state.md R10). `index` is in FIELD INDEXING: 0 is the MOST significant
bit of the byte (00_scope.md R2(b), R3). A descriptor may be invalid; `FieldDesc.valid` is R11. -/
structure FieldDesc where
  index : Nat
  width : Nat
  deriving DecidableEq, Repr

/-- A bit-string operand, the pair (`VLEN`, `VAL`) of 30_encoding.md R56: `len` characters, right-aligned in `bits`. -/
structure BitString where
  len  : Nat
  bits : Byte
  deriving DecidableEq, Repr

/-- One constructor per row of spec/opcode_table.json (30_encoding.md R53). `fd` is a presented descriptor,
`rk` a register key, `fk` a field key, `data` the byte worked on, `val` a numeric value, `str` a bit-string. -/
inductive Instr where
  | ext  (fd : FieldDesc) (data : Byte)
  | ins  (fd : FieldDesc) (data val : Byte)
  | insb (fd : FieldDesc) (data : Byte) (str : BitString)
  | lay  (rk : Byte)
  | fld  (rk fk : Byte)
  | xfr  (rk fk data : Byte)
  | ifr  (rk fk data val : Byte)
  | ifrb (rk fk data : Byte) (str : BitString)
  deriving DecidableEq, Repr

/-- The six fields of a request word, as 30_encoding.md R50 lays them out. -/
structure RequestFields where
  op   : Nibble
  vlen : Nibble
  a    : Byte
  b    : Byte
  data : Byte
  val  : Byte
  deriving DecidableEq, Repr

/-- Why a request word is illegal, one name for each line of 30_encoding.md R57. The block reports all of them as IllegalRequest. -/
inductive IllegalReason where
  /-- `OP` is 0x0 or 0x9 to 0xF. -/
  | reservedOpcode
  /-- A field the operation does not use is not zero (R54). -/
  | unusedFieldNotZero
  /-- `VLEN = 0` in INSB or IFRB. -/
  | emptyBitString
  /-- `VLEN > 8` in INSB or IFRB. -/
  | bitStringTooLong
  /-- `VAL >> VLEN ≠ 0` in INSB or IFRB. -/
  | strayBits
  deriving DecidableEq, Repr

/-- A row of the opcode map as match and mask over the 40-bit word (30_encoding.md R54). `stringForm` says that the
further conditions on the bit-string apply. -/
structure OpcodeRow where
  mnemonic   : String
  mask       : Request
  pattern    : Request
  stringForm : Bool
  deriving DecidableEq, Repr

end Sys2Proof
end

