-- ==== Sys2Proof/Config.lean ====
section
/-! DEFINITION. The configuration: the shape of the schema (parameter P1), of the host's name table (parameter P8), and the free values of the environment. -/

namespace Sys2Proof

/-- A layout's entry: a field key with its stored descriptor (10_state.md R14, R16). -/
structure FieldEntry where
  key  : Byte
  desc : FieldDesc
  deriving DecidableEq, Repr

/-- A RegisterLayout, the ordered mapping from field key to descriptor (10_state.md R14). -/
abbrev RegisterLayout := List FieldEntry

/-- A schema's entry: a register key with its layout (10_state.md R16). -/
structure RegisterEntry where
  key    : Byte
  layout : RegisterLayout
  deriving DecidableEq, Repr

/-- The schema, parameter P1: any finite table. Whether it is well-formed is `Schema.wf` (10_state.md R16). -/
abbrev Schema := List RegisterEntry

/-- The environment's table from register and strobe names to addresses, parameter P8 (20_memory.md R38). -/
abbrev NameTable := List (String × Byte)

/-- FREE VALUE (log entry 6). What a configuration register of the target chip holds when nothing known has been
written to it since the chip's last action of its own: the spec gives no register's reset value and no strobe's
effect (10_state.md R29, 93_implementation_defined.md U24). The first argument counts the chip's actions, the second is the address. -/
opaque Config.chipContents : Nat → Byte → Byte

/-- FREE VALUE (log entry 7). The byte the chip returns on the `n`-th read whose value the spec leaves to the chip
(93_implementation_defined.md U25; the FIFO of 20_memory.md R43) and that no given input supplies. -/
opaque Config.chipDraw : Nat → Byte

/-- FREE VALUE (log entry 11). The address byte of a burst read whose stepped address passes 0xFF
(93_implementation_defined.md U21, parameter P9). -/
opaque Config.burstPastTop : Nat → Byte

end Sys2Proof
end

