-- ==== Sys2Proof/Machine/State.lean ====
section
/-! DEFINITION. The state as plain data: the block's response register, the schema it was built with, and the environment (host and target chip). -/

namespace Sys2Proof.Machine

/-- The response register `RSP`, the block's only architectural state (10_state.md R20). -/
structure Rsp where
  valid  : Bool
  status : Byte
  result : Byte
  deriving DecidableEq, Repr

/-- The five faults the block can report (60_exceptions.md R100). A fault is a response, never a stop (R107). -/
inductive BlockFault where
  | invalidFieldSpec
  | valueOutOfRange
  | unknownRegister
  | unknownField
  | illegalRequest
  deriving DecidableEq, Repr

/-- What `resolveAddress` is given: an integer, a name, or a value of any other type (20_memory.md R38). -/
inductive HostRef where
  | int (n : Int)
  | name (s : String)
  | other
  deriving DecidableEq, Repr

/-- A fault the host reports to its caller; none has a STATUS code (60_exceptions.md R110). -/
inductive HostFault where
  /-- An integer outside 0 to 255 (20_memory.md R38). -/
  | invalidAddress
  /-- Neither an integer nor a name (20_memory.md R38). -/
  | invalidAddressType
  /-- A name that the table lacks: the document names no fault for it (93_implementation_defined.md U28). -/
  | unknownName
  /-- The polling bound is exhausted (42_register_forms.md R96). -/
  | timeout
  /-- The block answered a macro's request with this fault code (42_register_forms.md R95). -/
  | blockFault (status : Byte)
  deriving DecidableEq, Repr

/-- One thing the host does next. The host's program is the order in which it does these (95_test_vectors.md section 3). -/
inductive HostAction where
  /-- Present a request word to the block (00_scope.md R4). -/
  | request (w : Request)
  /-- Reset the block (70_reset_and_hazards.md R120). That the host resets a running block, as one of its actions and
  between two steps, is the model's choice: no rule names who resets it or when (log entry 20). -/
  | resetBlock
  /-- `readByte(ref)` (20_memory.md R33). -/
  | readByte (ref : HostRef)
  /-- `writeByte(ref, value)` (20_memory.md R34). -/
  | writeByte (ref : HostRef) (v : Byte)
  /-- `strobe(ref)` (20_memory.md R35). -/
  | strobe (ref : HostRef)
  /-- `readBurst(ref, length)` (20_memory.md R36). -/
  | readBurst (ref : HostRef) (length : Nat)
  /-- `writeBurst(ref, data)` (20_memory.md R37). -/
  | writeBurst (ref : HostRef) (data : List Byte)
  /-- The macro `RDF rk, fk` (42_register_forms.md R94). -/
  | rdf (rk fk : Byte)
  /-- Last part of RDF: its value is `RESULT` if the response is OK, else the fault is reported (42_register_forms.md
  R94, 60_exceptions.md R108, log entry 21). -/
  | rdfResult
  /-- The macro `WRF rk, fk, v` with a numeric value (42_register_forms.md R95). -/
  | wrf (rk fk v : Byte)
  /-- The macro WRF with a bit-string, the pair (`VLEN`, `VAL`) as presented (42_register_forms.md R95). -/
  | wrfb (rk fk : Byte) (vlen : Nibble) (val : Byte)
  /-- Last part of WRF: write `RESULT` to `rk` if the response is OK, else report the fault (42_register_forms.md R95). -/
  | writeBack (rk : Byte)
  /-- Repeat `RDF rk, fk` until its value is `want`, at most `bound` times (42_register_forms.md R96, parameter P10). -/
  | poll (rk fk want : Byte) (bound : Nat)
  /-- Part of the polling loop after one RDF: compare, then leave or repeat, `left` times at most. -/
  | pollCheck (rk fk want : Byte) (left : Nat)
  deriving DecidableEq, Repr

/-- The configuration registers' known contents as (address, byte) pairs, addresses strictly rising.
An unlisted address has no known byte (log entry 6). -/
abbrev Memory := List Host.Cell

/-- Everything outside the block: the host's plan and what it holds, and the target chip. -/
structure Environment where
  agenda      : List HostAction
  names       : NameTable
  chip        : Memory
  chipActions : Nat
  incoming    : List Byte
  draws       : Nat
  sent        : List (List Byte)
  received    : List Byte
  reported    : Option HostFault
  deriving DecidableEq, Repr

/-- The whole machine. `rsp` is the block's state; `schema` is its immutable configuration, carried as data
(10_state.md R17, log entry 2); `env` is everything outside the block. -/
structure State where
  rsp    : Rsp
  schema : Schema
  env    : Environment
  deriving DecidableEq, Repr

/-- A stop with a fault. There is none: every fault of the block is a response after which the machine goes on
(60_exceptions.md R107, R108), and every fault of the host is reported to its caller (log entry 4). -/
inductive Fault where
  deriving DecidableEq, Repr

/-- Why a step has no meaning. -/
inductive Refusal where
  /-- Raised by an arm of `exec` whose instruction is not modelled yet; no arm raises it. Safe. -/
  | notModelled (mnemonic : String)
  /-- Raised by a host action that reads at an address in no class: "`refuse`: no access to them is given a meaning"
  (93_implementation_defined.md U23, log entry 8). Safe. -/
  | chipReadNotGiven (address : Byte)
  /-- Raised by a host action that writes at an address in no class: "`refuse`: no access to them is given a meaning"
  (93_implementation_defined.md U23, log entry 8). Safe. -/
  | chipWriteNotGiven (address : Byte)
  deriving DecidableEq, Repr

/-- `VALID = 0`, `STATUS = 0x00`, `RESULT = 0x00` (10_state.md R29). -/
def Rsp.reset : Rsp := ⟨false, 0x00, 0x00⟩

/-- The environment before the host has done anything (log entries 1, 5, 6, 7, 12). -/
def Environment.reset : Environment where
  agenda      := []
  names       := []
  chip        := []
  chipActions := 0
  incoming    := []
  draws       := 0
  sent        := []
  received    := []
  reported    := none

/-- The machine right after reset (10_state.md R29); the schema is a parameter, here the empty one (log entry 2). -/
def State.reset : State where
  rsp    := Rsp.reset
  schema := []
  env    := Environment.reset

/-- Write the whole response register. -/
def State.withRsp (s : State) (r : Rsp) : State := { s with rsp := r }

/-- Replace the environment. -/
def State.withEnv (s : State) (e : Environment) : State := { s with env := e }

/-- Replace what the host does next. -/
def State.withAgenda (s : State) (l : List HostAction) : State :=
  { s with env := { s.env with agenda := l } }

end Sys2Proof.Machine
end

