-- ==== Sys2Proof/Machine/Flags.lean ====
section
/-! DEFINITION. Status: the codes of RSP.STATUS and the two shapes of a response. The block has no condition codes (10_state.md R21). -/

namespace Sys2Proof.Machine

/-- The code of OK (60_exceptions.md R100). -/
def statusOk : Byte := 0x00

/-- The status code of a fault (60_exceptions.md R100). -/
def BlockFault.code : BlockFault → Byte
  | .invalidFieldSpec => 0x01
  | .valueOutOfRange  => 0x02
  | .unknownRegister  => 0x03
  | .unknownField     => 0x04
  | .illegalRequest   => 0x0F

/-- The codes the block can produce (60_exceptions.md R100); every other code is never produced (93_implementation_defined.md U4). -/
def statusCodes : List Byte :=
  [0x00, 0x01, 0x02, 0x03, 0x04, 0x0F]

/-- The response of a successful operation: `VALID = 1`, `STATUS = OK` (10_state.md R20, 30_encoding.md R52). -/
def Rsp.ok (r : Byte) : Rsp := ⟨true, statusOk, r⟩

/-- The response of a faulting operation: `VALID = 1`, the code, `RESULT = 0x00` (60_exceptions.md R107). -/
def Rsp.ofFault (f : BlockFault) : Rsp := ⟨true, f.code, 0x00⟩

/-- The fault names of 60_exceptions.md R100, as the spec writes a response `-> <FaultName>` (30_encoding.md R60). -/
def BlockFault.name : BlockFault → String
  | .invalidFieldSpec => "InvalidFieldSpec"
  | .valueOutOfRange  => "ValueOutOfRange"
  | .unknownRegister  => "UnknownRegister"
  | .unknownField     => "UnknownField"
  | .illegalRequest   => "IllegalRequest"

/-- The response word `RSP[15:0]`: `STATUS` in `[15:8]`, `RESULT` in `[7:0]` (30_encoding.md R52). -/
def Rsp.word (r : Rsp) : BitVec 16 := r.status ++ r.result

/-- A response on a byte-wide link: `STATUS`, then `RESULT` (30_encoding.md R59). -/
def Rsp.bytes (r : Rsp) : List Byte := [r.status, r.result]

end Sys2Proof.Machine
end

