-- ==== Sys2Proof/Machine/Operands.lean ====
section
/-! DEFINITION. Operands: descriptors (validity, shift, mask, covered bits, overlap), bit-strings, and the well-formedness of a schema. -/

namespace Sys2Proof

/-- 10_state.md R11: `0 ≤ i ≤ 7`, `1 ≤ w ≤ 8` and `i + w ≤ 8`. -/
def FieldDesc.valid (fd : FieldDesc) : Bool :=
  decide (fd.index ≤ 7) && decide (1 ≤ fd.width) && decide (fd.width ≤ 8) && decide (fd.index + fd.width ≤ 8)

/-- `shift = 8 - (i + w)` (10_state.md R12). -/
def FieldDesc.shift (fd : FieldDesc) : Nat :=
  8 - (fd.index + fd.width)

/-- `mask = (1 << w) - 1`, on naturals, so that it is 255 for `w = 8` (10_state.md R12, 40_codec_direct.md R77). -/
def FieldDesc.mask (fd : FieldDesc) : Nat :=
  (1 <<< fd.width) - 1

/-- The positioned mask `mask << shift` (10_state.md R12). -/
def FieldDesc.pmask (fd : FieldDesc) : Nat :=
  fd.mask <<< fd.shift

/-- Field index `k` is one of `i, …, i+w-1` (10_state.md R13). -/
def FieldDesc.covers (fd : FieldDesc) (k : Nat) : Bool :=
  decide (fd.index ≤ k) && decide (k < fd.index + fd.width)

/-- Two descriptors overlap when their positioned masks share a bit (10_state.md R15). -/
def FieldDesc.overlaps (f g : FieldDesc) : Bool :=
  decide (f.pmask &&& g.pmask ≠ 0)

/-- The descriptor of the datasheet bits `hi` down to `lo`, which are in value numbering (70_reset_and_hazards.md R123). -/
def FieldDesc.ofDatasheet (hi lo : Nat) : FieldDesc :=
  ⟨7 - hi, hi - lo + 1⟩

/-- The string's characters, leftmost first: the first is `VAL[VLEN-1]`, the last `VAL[0]` (30_encoding.md R56). -/
def BitString.chars (str : BitString) : List Bool :=
  (List.range str.len).map fun k => str.bits.getLsbD (str.len - 1 - k)

/-- Zeros on the left up to `w` characters (30_encoding.md R56). -/
def padLeft (w : Nat) (chars : List Bool) : List Bool :=
  List.replicate (w - chars.length) false ++ chars

/-- The number a string of binary digits stands for, leftmost digit most significant. -/
def valueOfChars (chars : List Bool) : Nat :=
  chars.foldl (fun n c => 2 * n + c.toNat) 0

/-! ## Well-formedness of the schema (10_state.md R16) -/

/-- WF1: register keys are pairwise distinct. -/
def Schema.registerKeysDistinct (sch : Schema) : Bool :=
  decide (sch.map RegisterEntry.key).Nodup

/-- WF2: inside a layout, field keys are pairwise distinct. -/
def RegisterLayout.fieldKeysDistinct (l : RegisterLayout) : Bool :=
  decide (l.map FieldEntry.key).Nodup

/-- WF3: every stored descriptor is valid. -/
def RegisterLayout.descriptorsValid (l : RegisterLayout) : Bool :=
  l.all fun f => f.desc.valid

/-- WF4: inside a layout, no two descriptors overlap. -/
def RegisterLayout.noOverlap (l : RegisterLayout) : Bool :=
  decide (l.Pairwise fun f g => f.desc.overlaps g.desc = false)

/-- WF5: inside a layout, the widths sum to at most 8. -/
def RegisterLayout.widthsFit (l : RegisterLayout) : Bool :=
  decide ((l.map fun f => f.desc.width).sum ≤ 8)

/-- WF2 to WF5 for one layout. -/
def RegisterLayout.wf (l : RegisterLayout) : Bool :=
  l.fieldKeysDistinct && l.descriptorsValid && l.noOverlap && l.widthsFit

/-- The schema is well-formed: WF1 to WF5 (10_state.md R16). -/
def Schema.wf (sch : Schema) : Bool :=
  sch.registerKeysDistinct && sch.all fun e => RegisterLayout.wf e.layout

end Sys2Proof
end

