-- ==== Sys2Proof/Machine/Ops.lean ====
section
/-! DEFINITION. The named operations the meanings share: the two datapaths, the two lookups, answering, raising a fault, reset and construction of the block, and the memory of the target chip. -/

namespace Sys2Proof.Machine

/-! ## The datapaths -/

/-- `(DATA >> shift) & mask` (40_codec_direct.md R70). -/
def extractBits (data : Byte) (fd : FieldDesc) : Byte :=
  (data >>> fd.shift) &&& BitVec.ofNat 8 fd.mask

/-- `(DATA & ~pmask) | (VAL << shift)` (40_codec_direct.md R71). -/
def insertBits (data : Byte) (fd : FieldDesc) (val : Byte) : Byte :=
  (data &&& ~~~BitVec.ofNat 8 fd.pmask) ||| (val <<< fd.shift)

/-- The document's `extractField`: the descriptor is checked, then the bits are taken (40_codec_direct.md R70). -/
def extractField (data : Byte) (fd : FieldDesc) : Except BlockFault Byte :=
  if fd.valid then .ok (extractBits data fd) else .error .invalidFieldSpec

/-- The numeric insert once the descriptor is known: the value must fit, `VAL ≤ mask` (40_codec_direct.md R71, 60_exceptions.md R102). -/
def insertNumeric (data : Byte) (fd : FieldDesc) (val : Byte) : Except BlockFault Byte :=
  if val.toNat > fd.mask then .error .valueOutOfRange else .ok (insertBits data fd val)

/-- The bit-string insert once the descriptor is known: the string must not be longer than the field
(40_codec_direct.md R72, 60_exceptions.md R102). -/
def insertString (data : Byte) (fd : FieldDesc) (str : BitString) : Except BlockFault Byte :=
  if str.len > fd.width then .error .valueOutOfRange else .ok (insertBits data fd str.bits)

/-! ## The lookups -/

/-- `layoutFor(rk)` (41_schema_lookup.md R80): keys are compared for equality only. -/
def layoutFor (sch : Schema) (rk : Byte) : Except BlockFault RegisterLayout :=
  match sch.find? fun e => e.key == rk with
  | some e => .ok e.layout
  | none => .error .unknownRegister

/-- `fieldIn(rk, fk)` (41_schema_lookup.md R81): the register is looked up first, the field only inside its layout. -/
def fieldIn (sch : Schema) (rk fk : Byte) : Except BlockFault FieldDesc :=
  match layoutFor sch rk with
  | .error f => .error f
  | .ok l =>
    match l.find? fun e => e.key == fk with
    | some e => .ok e.desc
    | none => .error .unknownField

/-! ## Answering -/

/-- `RSP <- (OK, r)` (10_state.md R20). -/
def respond (s : State) (r : Byte) : State := s.withRsp (Rsp.ok r)

/-- Taking a fault: `VALID <- 1`, `STATUS <- code`, `RESULT <- 0x00`, and nothing else changes
(60_exceptions.md R107). There is no return: nothing was entered (R108). -/
def raise (s : State) (f : BlockFault) : State := s.withRsp (Rsp.ofFault f)

/-- The end of every operation: the result or the fault stands in `RSP`. -/
def answer (s : State) : Except BlockFault Byte → State
  | .ok r => respond s r
  | .error f => raise s f

/-! ## Reset and construction -/

/-- Reset clears the response register and does nothing else: neither the schema nor the target chip is touched
(70_reset_and_hazards.md R120). -/
def resetBlock (s : State) : State := s.withRsp Rsp.reset

/-- Building the block: an ill-formed schema is refused, so the block exists only for a well-formed one
(10_state.md R16, 70_reset_and_hazards.md R121). -/
def State.construct (sch : Schema) : Option State :=
  if sch.wf then some { State.reset with schema := sch } else none

/-! ## The target chip's configuration registers as memory -/

/-- What is known of the byte at `a`. An unlisted address has no known byte: this is what unlisted addresses read as. -/
def Memory.read? (m : Memory) (a : Nat) : Option Byte :=
  match m.find? fun c => c.1 == a with
  | some c => some c.2
  | none => none

/-- Store a byte, keeping the addresses strictly rising. -/
def Memory.write : Memory → Nat → Byte → Memory
  | [], a, v => [(a, v)]
  | c :: m, a, v =>
    if a < c.1 then (a, v) :: c :: m
    else if a = c.1 then (a, v) :: m
    else c :: Memory.write m a v

/-- The canonical form: addresses strictly rising, all of them configuration registers (20_memory.md R31). -/
def Memory.wf (m : Memory) : Bool :=
  decide (m.Pairwise fun c d => c.1 < d.1) && m.all fun c => decide (c.1 ≤ 0x2E)

end Sys2Proof.Machine
end

