-- ==== Sys2Proof/Machine/Chip.lean ====
section
/-! DEFINITION. Environment: the target chip's address classes, the command byte, and what a read or write of one address does (20_memory.md). The block never calls anything here. -/

namespace Sys2Proof.Machine

/-! ## The address space -/

/-- The classes of 20_memory.md R31; `unmentioned` is its "(no class)". -/
inductive AddressClass where
  | configuration
  | strobe
  | patable
  | fifo
  | status
  | unmentioned
  deriving DecidableEq, Repr

/-- The class of an address (20_memory.md R31; the ranges as 90_conflicts.md C1 and C4 settle them). -/
def addressClass (a : Byte) : AddressClass :=
  if a.toNat ≤ 0x2E then .configuration
  else if 0x30 ≤ a.toNat ∧ a.toNat ≤ 0x3D then .strobe
  else if a.toNat = 0x3E then .patable
  else if a.toNat = 0x3F then .fifo
  else if 0xF0 ≤ a.toNat ∧ a.toNat ≤ 0xFD then .status
  else .unmentioned

/-! ## The command byte -/

/-- The four operation classes of a bus transaction (20_memory.md R32). -/
inductive BusClass where
  | writeSingle
  | writeBurst
  | readSingle
  | readBurst
  deriving DecidableEq, Repr

/-- The header constants (20_memory.md R32). -/
def BusClass.header : BusClass → Byte
  | .writeSingle => 0x00
  | .writeBurst  => 0x40
  | .readSingle  => 0x80
  | .readBurst   => 0xC0

/-- The value of the CLASS field of the command byte (30_encoding.md R63). -/
def BusClass.number : BusClass → Byte
  | .writeSingle => 0
  | .writeBurst  => 1
  | .readSingle  => 2
  | .readBurst   => 3

/-- `header | addr` with `addr` the full 8-bit address (20_memory.md R32, 90_conflicts.md C2). -/
def commandByte (c : BusClass) (a : Byte) : Byte := c.header ||| a

/-- The command byte's layout in the block's own terms (30_encoding.md R63): CLASS = fd(0,2), ADDR = fd(2,6). The field
keys 0x00 and 0x01 are the model's choice: keys are assigned per schema and R63 gives none (log entry 25). -/
def commandLayout : RegisterLayout := [⟨0x00, ⟨0, 2⟩⟩, ⟨0x01, ⟨2, 6⟩⟩]

/-- The frame `[READ_SINGLE | addr, 0x00]` (20_memory.md R33). -/
def readByteFrame (a : Byte) : List Byte := [commandByte .readSingle a, 0x00]

/-- The frame `[WRITE_SINGLE | addr, value]` (20_memory.md R34). -/
def writeByteFrame (a v : Byte) : List Byte := [commandByte .writeSingle a, v]

/-- The frame `[addr, 0x00]`, no header (20_memory.md R35). -/
def strobeFrame (a : Byte) : List Byte := [a, 0x00]

/-- The frame `[WRITE_BURST | addr]` followed by the data, one exchange (20_memory.md R37). -/
def writeBurstFrame (a : Byte) (data : List Byte) : List Byte := commandByte .writeBurst a :: data

/-- The address of the `k`-th byte of a burst read, `addr + 8*k`; past 0xFF it is parameter P9 (20_memory.md R36). -/
def readBurstAddress (a : Byte) (k : Nat) : Byte :=
  if a.toNat + 8 * k ≤ 0xFF then BitVec.ofNat 8 (a.toNat + 8 * k) else Config.burstPastTop (a.toNat + 8 * k)

/-- The command bytes of a burst read: `READ_BURST | (addr + 8*k)` for each `k` (20_memory.md R36). -/
def readBurstCommands (a : Byte) (length : Nat) : List (List Byte) :=
  (List.range length).map fun k => [commandByte .readBurst (readBurstAddress a k)]

/-! ## What the chip does -/

/-- A byte whose value the spec leaves to the chip: the next given input, or a free value when none is given (log entry 7). -/
def drawByte (e : Environment) : Byte × Environment :=
  match e.incoming with
  | b :: rest => (b, { e with incoming := rest })
  | [] => (Config.chipDraw e.draws, { e with draws := e.draws + 1 })

/-- `n` such bytes, in order. -/
def drawBytes : Nat → Environment → List Byte × Environment
  | 0, e => ([], e)
  | n + 1, e => ((drawByte e).1 :: (drawBytes n (drawByte e).2).1, (drawBytes n (drawByte e).2).2)

/-- The byte a configuration register holds: what was last written to it, or a free value (log entry 6). -/
def chipByte (e : Environment) (a : Byte) : Byte :=
  match Memory.read? e.chip a.toNat with
  | some v => v
  | none => Config.chipContents e.chipActions a

/-- The chip may act on its own: afterwards nothing is known of the configuration registers, which are free values
(20_memory.md R43, log entry 6). -/
def chipAction (e : Environment) : Environment :=
  { e with chip := [], chipActions := e.chipActions + 1 }

/-- A read of one address (20_memory.md R31, R33, R43). A configuration register gives what it holds, and reading it
changes nothing: the model's choice, R43 leaves its side effects open (log entry 22). A status register, PATABLE or the
FIFO gives what the chip returns at that moment (log entry 7). At a strobe address the byte is free, and so is whether
the chip acts (log entry 23). An address in no class is refused (93_implementation_defined.md U23, log entry 8). -/
def chipRead (e : Environment) (a : Byte) : Option (Byte × Environment) :=
  match addressClass a with
  | .configuration => some (chipByte e a, e)
  | .status | .patable | .fifo => some (drawByte e)
  | .strobe => some (drawByte (chipAction e))
  | .unmentioned => none

/-- A write of one address (20_memory.md R31, R34, R43). A configuration register takes the byte, PATABLE and the FIFO
take it where no read of the spec gives it back (log entry 9), a strobe address triggers the chip's action. A status
register is read-only (42_register_forms.md R91): the frame goes out and no register changes (log entry 24). An address
in no class is refused (93_implementation_defined.md U23, log entry 8). -/
def chipWrite (e : Environment) (a v : Byte) : Option Environment :=
  match addressClass a with
  | .configuration => some { e with chip := Memory.write e.chip a.toNat v }
  | .patable | .fifo | .status => some e
  | .strobe => some (chipAction e)
  | .unmentioned => none

/-- Store consecutive bytes from address `a` on. -/
def writeConsecutive (m : Memory) (a : Nat) : List Byte → Memory
  | [] => m
  | v :: data => writeConsecutive (Memory.write m a v) (a + 1) data

/-- A burst write (20_memory.md R37): consecutive configuration registers, and where the burst runs past the last of
them nothing is known afterwards (log entry 10); elsewhere what a write of one byte there does, whatever the data
(log entry 24). -/
def chipWriteBurst (e : Environment) (a : Byte) (data : List Byte) : Option Environment :=
  match addressClass a with
  | .configuration =>
    if a.toNat + data.length ≤ 0x2F then some { e with chip := writeConsecutive e.chip a.toNat data }
    else some (chipAction e)
  | .patable | .fifo | .status => some e
  | .strobe => some (chipAction e)
  | .unmentioned => none

end Sys2Proof.Machine
end

