-- ==== Sys2Proof/WellFormed.lean ====
section
/-! DEFINITION. Which instruction terms a request word can carry (30_encoding.md R51, R56). -/

namespace Sys2Proof

/-- Both components of a PRESENTED descriptor are four bits wide (30_encoding.md R51). It need not be valid. -/
def FieldDesc.presentable (fd : FieldDesc) : Bool :=
  decide (fd.index < 16) && decide (fd.width < 16)

/-- `1 ≤ VLEN ≤ 8` and `VAL >> VLEN = 0` (30_encoding.md R56). -/
def BitString.wellFormed (str : BitString) : Bool :=
  decide (1 ≤ str.len) && decide (str.len ≤ 8) && decide (str.bits.toNat >>> str.len = 0)

/-- The instruction can be presented in a request word. -/
def Instr.wellFormed : Instr → Bool
  | .ext fd _      => fd.presentable
  | .ins fd _ _    => fd.presentable
  | .insb fd _ str => fd.presentable && str.wellFormed
  | .lay _         => true
  | .fld _ _       => true
  | .xfr _ _ _     => true
  | .ifr _ _ _ _   => true
  | .ifrb _ _ _ str => str.wellFormed

end Sys2Proof
end

