-- ==== Sys2Proof/Decode.lean ====
section
/-! DEFINITION. The request word: its fields, the opcode map, the decoder, the encoder and the byte order on a byte-wide link (30_encoding.md). -/

namespace Sys2Proof

/-! ## Fields of the request word -/

/-- `OP[39:36] VLEN[35:32] A[31:24] B[23:16] DATA[15:8] VAL[7:0]` (30_encoding.md R50). -/
def unpackRequest (w : Request) : RequestFields where
  op   := w.extractLsb' 36 4
  vlen := w.extractLsb' 32 4
  a    := w.extractLsb' 24 8
  b    := w.extractLsb' 16 8
  data := w.extractLsb' 8 8
  val  := w.extractLsb' 0 8

/-- The word of six fields (30_encoding.md R50). -/
def packRequest (f : RequestFields) : Request :=
  f.op ++ f.vlen ++ f.a ++ f.b ++ f.data ++ f.val

/-- `FD[7:4] = bitIndex`, `FD[3:0] = bitWidth` (30_encoding.md R51). -/
def fdOfByte (a : Byte) : FieldDesc where
  index := (a.extractLsb' 4 4).toNat
  width := (a.extractLsb' 0 4).toNat

/-- The FD byte of a descriptor, `(i << 4) | (w & 0xF)` (30_encoding.md R51, 41_schema_lookup.md R83). -/
def byteOfFd (fd : FieldDesc) : Byte :=
  BitVec.ofNat 8 ((fd.index <<< 4) ||| (fd.width &&& 0xF))

/-! ## The opcode map -/

/-- The eight rows of 30_encoding.md R54 (the match and mask of spec/opcode_table.json). -/
def opcodeTable : List OpcodeRow :=
  [ ⟨"EXT",  0xFF00FF00FF, 0x1000000000, false⟩,
    ⟨"INS",  0xFF00FF0000, 0x2000000000, false⟩,
    ⟨"INSB", 0xF000FF0000, 0x3000000000, true⟩,
    ⟨"LAY",  0xFF00FFFFFF, 0x4000000000, false⟩,
    ⟨"FLD",  0xFF0000FFFF, 0x5000000000, false⟩,
    ⟨"XFR",  0xFF000000FF, 0x6000000000, false⟩,
    ⟨"IFR",  0xFF00000000, 0x7000000000, false⟩,
    ⟨"IFRB", 0xF000000000, 0x8000000000, true⟩ ]

/-- A word matches a row when `REQ & mask = match` and, for the bit-string forms, `1 ≤ VLEN ≤ 8` and
`VAL >> VLEN = 0` (30_encoding.md R54). -/
def OpcodeRow.accepts (row : OpcodeRow) (w : Request) : Bool :=
  decide (w &&& row.mask = row.pattern) &&
    (!row.stringForm ||
      (BitString.mk (unpackRequest w).vlen.toNat (unpackRequest w).val).wellFormed)

/-- The mnemonic of an instruction, as spec/opcode_table.json spells it. -/
def Instr.mnemonic : Instr → String
  | .ext _ _      => "EXT"
  | .ins _ _ _    => "INS"
  | .insb _ _ _   => "INSB"
  | .lay _        => "LAY"
  | .fld _ _      => "FLD"
  | .xfr _ _ _    => "XFR"
  | .ifr _ _ _ _  => "IFR"
  | .ifrb _ _ _ _ => "IFRB"

/-! ## The decoder -/

/-- Step 3 of the decode procedure: the bit-string operand of INSB and IFRB (30_encoding.md R56, R58). -/
def decodeBitString (vlen : Nibble) (val : Byte) : Except IllegalReason BitString :=
  if vlen.toNat = 0 then .error .emptyBitString
  else if 8 < vlen.toNat then .error .bitStringTooLong
  else if val.toNat >>> vlen.toNat ≠ 0 then .error .strayBits
  else .ok ⟨vlen.toNat, val⟩

/-- Steps 1 to 3 of the decode procedure on the fields of a word, the first failing check deciding (30_encoding.md R58). -/
def decodeFields (f : RequestFields) : Except IllegalReason Instr :=
  match f.op.toNat with
  | 1 => if f.vlen = 0 ∧ f.b = 0 ∧ f.val = 0 then .ok (.ext (fdOfByte f.a) f.data) else .error .unusedFieldNotZero
  | 2 => if f.vlen = 0 ∧ f.b = 0 then .ok (.ins (fdOfByte f.a) f.data f.val) else .error .unusedFieldNotZero
  | 3 =>
    if f.b = 0 then
      match decodeBitString f.vlen f.val with
      | .ok str => .ok (.insb (fdOfByte f.a) f.data str)
      | .error r => .error r
    else .error .unusedFieldNotZero
  | 4 => if f.vlen = 0 ∧ f.b = 0 ∧ f.data = 0 ∧ f.val = 0 then .ok (.lay f.a) else .error .unusedFieldNotZero
  | 5 => if f.vlen = 0 ∧ f.data = 0 ∧ f.val = 0 then .ok (.fld f.a f.b) else .error .unusedFieldNotZero
  | 6 => if f.vlen = 0 ∧ f.val = 0 then .ok (.xfr f.a f.b f.data) else .error .unusedFieldNotZero
  | 7 => if f.vlen = 0 then .ok (.ifr f.a f.b f.data f.val) else .error .unusedFieldNotZero
  | 8 =>
    match decodeBitString f.vlen f.val with
    | .ok str => .ok (.ifrb f.a f.b f.data str)
    | .error r => .error r
  | _ => .error .reservedOpcode

/-- Total decoding of a request word (30_encoding.md R58). -/
def decode (w : Request) : Except IllegalReason Instr :=
  decodeFields (unpackRequest w)

/-! ## The encoder -/

/-- The fields of an instruction's request word; a field the operation does not use is zero (30_encoding.md R53, R54). -/
def encodeFields : Instr → RequestFields
  | .ext fd data        => ⟨1, 0, byteOfFd fd, 0, data, 0⟩
  | .ins fd data val    => ⟨2, 0, byteOfFd fd, 0, data, val⟩
  | .insb fd data str   => ⟨3, BitVec.ofNat 4 str.len, byteOfFd fd, 0, data, str.bits⟩
  | .lay rk             => ⟨4, 0, rk, 0, 0, 0⟩
  | .fld rk fk          => ⟨5, 0, rk, fk, 0, 0⟩
  | .xfr rk fk data     => ⟨6, 0, rk, fk, data, 0⟩
  | .ifr rk fk data val => ⟨7, 0, rk, fk, data, val⟩
  | .ifrb rk fk data str => ⟨8, BitVec.ofNat 4 str.len, rk, fk, data, str.bits⟩

/-- The request word of an instruction. -/
def encode (i : Instr) : Request :=
  packRequest (encodeFields i)

/-! ## Serialisation on a byte-wide link (30_encoding.md R59) -/

/-- Five bytes, most significant first: `OP/VLEN, A, B, DATA, VAL`. -/
def requestBytes (w : Request) : List Byte :=
  [w.extractLsb' 32 8, w.extractLsb' 24 8, w.extractLsb' 16 8, w.extractLsb' 8 8, w.extractLsb' 0 8]

/-- The request at the front of a byte stream, with the rest of the stream; `none` while fewer than five bytes are there. -/
def requestOfBytes : List Byte → Option (Request × List Byte)
  | opVlen :: a :: b :: data :: val :: rest => some (opVlen ++ a ++ b ++ data ++ val, rest)
  | _ => none

/-- The instruction at the front of a byte stream: `none` for a stream shorter than a request, else what `decode` answers. -/
def decodeBytes (bytes : List Byte) : Option (Except IllegalReason Instr × List Byte) :=
  match requestOfBytes bytes with
  | some (w, rest) => some (decode w, rest)
  | none => none

/-! ## The host's view of the decoder -/

/-- The request word whose table bits are `w`: the table numbers the one 40-bit word with bit 0 least significant;
the bits above `nbits` are zero (log entry 18). -/
def tableWord (nbits w : Nat) : Request :=
  BitVec.ofNat 40 (w % 2 ^ nbits)

/-- The instruction the decoder reads from the word with table bits `w`. -/
def decodeTableWord (nbits w : Nat) : Option Instr :=
  match decode (tableWord nbits w) with
  | .ok i => some i
  | .error _ => none

end Sys2Proof
end

