-- ==== Sys2Proof/Machine/Codec.lean ====
section
/-! DEFINITION. The operations with a direct descriptor: EXT, INS, INSB (40_codec_direct.md). -/

namespace Sys2Proof.Machine

/-- EXT (40_codec_direct.md R70). -/
def execExt (fd : FieldDesc) (data : Byte) (s : State) : Host.Outcome State Fault Refusal :=
  .next (answer s (extractField data fd))

/-- INS (40_codec_direct.md R71): the descriptor is checked before the value. -/
def execIns (fd : FieldDesc) (data val : Byte) (s : State) : Host.Outcome State Fault Refusal :=
  if fd.valid then .next (answer s (insertNumeric data fd val)) else .next (raise s .invalidFieldSpec)

/-- INSB (40_codec_direct.md R72): the descriptor is checked before the string's length. -/
def execInsb (fd : FieldDesc) (data : Byte) (str : BitString) (s : State) : Host.Outcome State Fault Refusal :=
  if fd.valid then .next (answer s (insertString data fd str)) else .next (raise s .invalidFieldSpec)

end Sys2Proof.Machine
end

