-- ==== Sys2Proof/Machine/Lookup.lean ====
section
/-! DEFINITION. The schema lookup operations: LAY, FLD (41_schema_lookup.md). -/

namespace Sys2Proof.Machine

/-- LAY (41_schema_lookup.md R82): the number of entries of the layout. -/
def execLay (rk : Byte) (s : State) : Host.Outcome State Fault Refusal :=
  match layoutFor s.schema rk with
  | .ok l => .next (respond s (BitVec.ofNat 8 l.length))
  | .error f => .next (raise s f)

/-- FLD (41_schema_lookup.md R83): the FD byte of the stored descriptor. -/
def execFld (rk fk : Byte) (s : State) : Host.Outcome State Fault Refusal :=
  match fieldIn s.schema rk fk with
  | .ok fd => .next (respond s (byteOfFd fd))
  | .error f => .next (raise s f)

end Sys2Proof.Machine
end

