-- ==== Sys2Proof/Machine/RegisterForms.lean ====
section
/-! DEFINITION. The operations addressed by (register key, field key): XFR, IFR, IFRB (42_register_forms.md). -/

namespace Sys2Proof.Machine

/-- XFR (42_register_forms.md R90). -/
def execXfr (rk fk data : Byte) (s : State) : Host.Outcome State Fault Refusal :=
  match fieldIn s.schema rk fk with
  | .ok fd => .next (respond s (extractBits data fd))
  | .error f => .next (raise s f)

/-- IFR (42_register_forms.md R91). -/
def execIfr (rk fk data val : Byte) (s : State) : Host.Outcome State Fault Refusal :=
  match fieldIn s.schema rk fk with
  | .ok fd => .next (answer s (insertNumeric data fd val))
  | .error f => .next (raise s f)

/-- IFRB (42_register_forms.md R92). -/
def execIfrb (rk fk data : Byte) (str : BitString) (s : State) : Host.Outcome State Fault Refusal :=
  match fieldIn s.schema rk fk with
  | .ok fd => .next (answer s (insertString data fd str))
  | .error f => .next (raise s f)

end Sys2Proof.Machine
end

