-- ==== Sys2Proof/Machine/Dispatch.lean ====
section
/-! DEFINITION. The dispatch: one arm per operation of the block. -/

namespace Sys2Proof.Machine

/-- One step of the block on a decoded request (step 4 of 30_encoding.md R58). -/
def exec (i : Instr) (s : State) : Host.Outcome State Fault Refusal :=
  match i with
  | .ext fd data => Sys2Proof.Machine.execExt fd data s
  | .ins fd data val => Sys2Proof.Machine.execIns fd data val s
  | .insb fd data str => Sys2Proof.Machine.execInsb fd data str s
  | .lay rk => Sys2Proof.Machine.execLay rk s
  | .fld rk fk => Sys2Proof.Machine.execFld rk fk s
  | .xfr rk fk data => Sys2Proof.Machine.execXfr rk fk data s
  | .ifr rk fk data val => Sys2Proof.Machine.execIfr rk fk data val s
  | .ifrb rk fk data str => Sys2Proof.Machine.execIfrb rk fk data str s

end Sys2Proof.Machine
end

