-- ==== Sys2Proof/Machine/Request.lean ====
section
/-! DEFINITION. Accepting a request: decode, then execute or answer IllegalRequest (30_encoding.md R58). -/

namespace Sys2Proof.Machine

/-- The block's step on a request word. An illegal word is answered with IllegalRequest (60_exceptions.md R105); no word stops the block. -/
def accept (w : Request) (s : State) : Host.Outcome State Fault Refusal :=
  match decode w with
  | .ok i => exec i s
  | .error _ => .next (raise s .illegalRequest)

end Sys2Proof.Machine
end

