-- ==== Sys2Proof/Machine/HostActions.lean ====
section
/-! DEFINITION. Environment: the host's access primitives (20_memory.md section 3), its macros RDF and WRF, and its bounded polling loop (42_register_forms.md sections 4 and 5). -/

namespace Sys2Proof.Machine

/-! ## The primitives -/

/-- `resolveAddress` (20_memory.md R38). -/
def resolveAddress (names : NameTable) : HostRef → Except HostFault Byte
  | .int n => if 0 ≤ n ∧ n ≤ 255 then .ok (BitVec.ofNat 8 n.toNat) else .error .invalidAddress
  | .name x =>
    match names.find? fun p => p.1 == x with
    | some p => .ok p.2
    | none => .error .unknownName
  | .other => .error .invalidAddressType

/-- The host reports a fault to its caller; nothing is retried (60_exceptions.md R107, R110). -/
def report (s : State) (f : HostFault) : State :=
  s.withEnv { s.env with reported := some f }

/-- `readByte` at a resolved address: the second response byte is what the host receives (20_memory.md R33). -/
def busRead (a : Byte) (s : State) : Host.Outcome State Fault Refusal :=
  match chipRead s.env a with
  | some (v, e) => .next (s.withEnv { e with sent := [readByteFrame a], received := [v] })
  | none => .refused (.chipReadNotGiven a)

/-- `writeByte` at a resolved address: nothing is returned (20_memory.md R34). -/
def busWrite (a v : Byte) (s : State) : Host.Outcome State Fault Refusal :=
  match chipWrite s.env a v with
  | some e => .next (s.withEnv { e with sent := [writeByteFrame a v], received := [] })
  | none => .refused (.chipWriteNotGiven a)

/-- `strobe` at a resolved address: the address goes out with no header, "equivalently with WRITE_SINGLE = 0x00", so
the chip takes the frame as a write of 0x00, which at a strobe address triggers its action; two response bytes of
unstated value come back (20_memory.md R35, R39, R43). -/
def busStrobe (a : Byte) (s : State) : Host.Outcome State Fault Refusal :=
  match chipWrite s.env a 0x00 with
  | some e => .next (s.withEnv { (drawBytes 2 e).2 with sent := [strobeFrame a], received := (drawBytes 2 e).1 })
  | none => .refused (.chipWriteNotGiven a)

/-- `readBurst` at a resolved address: one command byte for each byte; the bytes returned are the chip's (20_memory.md
R36, log entry 11). At a strobe address the command byte is a status access, both header bits set (90_conflicts.md C2).
The class of the first address alone decides: where a stepped address `addr + 8*k` falls in the strobe class or in no
class, the burst goes on with free bytes, which is the model's choice (log entry 11). -/
def busReadBurst (a : Byte) (length : Nat) (s : State) : Host.Outcome State Fault Refusal :=
  match addressClass a with
  | .configuration | .strobe | .status | .patable | .fifo =>
    .next (s.withEnv { (drawBytes length s.env).2 with
      sent := readBurstCommands a length, received := (drawBytes length s.env).1 })
  | .unmentioned => .refused (.chipReadNotGiven a)

/-- `writeBurst` at a resolved address (20_memory.md R37). -/
def busWriteBurst (a : Byte) (data : List Byte) (s : State) : Host.Outcome State Fault Refusal :=
  match chipWriteBurst s.env a data with
  | some e => .next (s.withEnv { e with sent := [writeBurstFrame a data], received := [] })
  | none => .refused (.chipWriteNotGiven a)

/-- Resolve a reference, then act at the address, or report why it does not resolve (20_memory.md R38). -/
def withAddress (ref : HostRef) (act : Byte → State → Host.Outcome State Fault Refusal) (s : State) :
    Host.Outcome State Fault Refusal :=
  match resolveAddress s.env.names ref with
  | .ok a => act a s
  | .error f => .next (report s f)

/-! ## The macros -/

/-- Do these next, before the rest of the plan. -/
def doNext (s : State) (l : List HostAction) : State :=
  s.withAgenda (l ++ s.env.agenda)

/-- The first half of both macros: `d <- readByte(rk)`, then the request made from `d` and what follows it. -/
def readThen (rk : Byte) (next : Byte → List HostAction) (s : State) : Host.Outcome State Fault Refusal :=
  match chipRead s.env rk with
  | some (d, e) => .next (doNext (s.withEnv { e with sent := [readByteFrame rk], received := [d] }) (next d))
  | none => .refused (.chipReadNotGiven rk)

/-- What the host does with the block's answer: go on if it is OK, else stop the operation and report the fault to its
caller (60_exceptions.md R108, 70_reset_and_hazards.md R127). `VALID` is not tested: with no response since reset, where
the host must not read `RSP` as an answer (10_state.md R29), a part of a macro taken on its own finds STATUS 0x00 and goes
on, which is the model's choice (log entry 26). -/
def unlessFault (act : State → Host.Outcome State Fault Refusal) (s : State) : Host.Outcome State Fault Refusal :=
  if s.rsp.status = statusOk then act s else .next (report s (.blockFault s.rsp.status))

/-- The last part of RDF: its value stays in `RESULT`, a fault is reported (42_register_forms.md R94, log entry 21). -/
def rdfResult (s : State) : Host.Outcome State Fault Refusal := unlessFault .next s

/-- The last part of WRF: the byte is written back only if the response is OK, otherwise the fault is reported and no
write is made (42_register_forms.md R95). -/
def writeBack (rk : Byte) (s : State) : Host.Outcome State Fault Refusal :=
  unlessFault (busWrite rk s.rsp.result) s

/-- One turn of the polling loop: RDF, then compare; with no turn left, report Timeout (42_register_forms.md R96, log entry 15). -/
def pollTurn (rk fk want : Byte) : Nat → State → Host.Outcome State Fault Refusal
  | 0, s => .next (report s .timeout)
  | left + 1, s => .next (doNext s [.rdf rk fk, .pollCheck rk fk want left])

/-- Leave the loop on the wanted value, stop on a block fault, else repeat (42_register_forms.md R96, log entry 15). -/
def pollCompare (rk fk want : Byte) (left : Nat) : State → Host.Outcome State Fault Refusal :=
  unlessFault fun s => if s.rsp.result = want then .next s else .next (doNext s [.poll rk fk want left])

/-! ## One action of the host -/

/-- What one action does, its own entry already taken from the agenda. -/
def hostAct : HostAction → State → Host.Outcome State Fault Refusal
  | .request w, s           => accept w s
  | .resetBlock, s          => .next (resetBlock s)
  | .readByte ref, s        => withAddress ref busRead s
  | .writeByte ref v, s     => withAddress ref (fun a => busWrite a v) s
  | .strobe ref, s          => withAddress ref busStrobe s
  | .readBurst ref n, s     => withAddress ref (fun a => busReadBurst a n) s
  | .writeBurst ref data, s => withAddress ref (fun a => busWriteBurst a data) s
  | .rdf rk fk, s           => readThen rk (fun d => [.request (encode (.xfr rk fk d)), .rdfResult]) s
  | .rdfResult, s           => rdfResult s
  | .wrf rk fk v, s         => readThen rk (fun d => [.request (encode (.ifr rk fk d v)), .writeBack rk]) s
  | .wrfb rk fk vlen val, s =>
    readThen rk (fun d => [.request (packRequest ⟨8, vlen, rk, fk, d, val⟩), .writeBack rk]) s
  | .writeBack rk, s        => writeBack rk s
  | .poll rk fk want n, s   => pollTurn rk fk want n s
  | .pollCheck rk fk want n, s => pollCompare rk fk want n s

end Sys2Proof.Machine
end

