-- ==== Sys2Proof/Machine/Step.lean ====
section
/-! DEFINITION. One step of the machine, and where the block finds its next request. -/

namespace Sys2Proof.Machine

/-- The host does the next thing of its agenda, which for a request is the block's step; with nothing to do, nothing
happens: the block has no step of its own accord (00_scope.md R4). -/
def step (s : State) : Host.Outcome State Fault Refusal :=
  match s.env.agenda with
  | [] => .next s
  | a :: rest => hostAct a (s.withAgenda rest)

/-- `s` with the request of table bits `w` as the next thing the host presents (log entries 1 and 18). -/
def State.withFetchWord (s : State) (nbits w : Nat) : State :=
  s.withAgenda (.request (tableWord nbits w) :: s.env.agenda)

end Sys2Proof.Machine
end

