-- ==== Sys2Proof/Machine/Assembly.lean ====
section
/-! DEFINITION. The spec's way of writing requests and responses (30_encoding.md R60). It is a way of writing only; no step reads it. -/

namespace Sys2Proof.Machine

/-- `fd(i,w)` with decimal numbers. -/
def FieldDesc.written (fd : FieldDesc) : String :=
  "fd(" ++ Nat.repr fd.index ++ "," ++ Nat.repr fd.width ++ ")"

/-- A bit-string in double quotes. -/
def BitString.written (str : BitString) : String :=
  "\"" ++ String.ofList ((BitString.chars str).map fun c => if c then '1' else '0') ++ "\""

/-- A number of the assembler, decimal. -/
def Byte.written (b : Byte) : String := Nat.repr b.toNat

/-- The line of the assembler for an instruction (30_encoding.md R60). -/
def Instr.written : Instr → String
  | .ext fd data => "EXT " ++ FieldDesc.written fd ++ ", " ++ Byte.written data
  | .ins fd data val => "INS " ++ FieldDesc.written fd ++ ", " ++ Byte.written data ++ ", " ++ Byte.written val
  | .insb fd data str => "INSB " ++ FieldDesc.written fd ++ ", " ++ Byte.written data ++ ", " ++ BitString.written str
  | .lay rk => "LAY " ++ Byte.written rk
  | .fld rk fk => "FLD " ++ Byte.written rk ++ ", " ++ Byte.written fk
  | .xfr rk fk data => "XFR " ++ Byte.written rk ++ ", " ++ Byte.written fk ++ ", " ++ Byte.written data
  | .ifr rk fk data val =>
    "IFR " ++ Byte.written rk ++ ", " ++ Byte.written fk ++ ", " ++ Byte.written data ++ ", " ++ Byte.written val
  | .ifrb rk fk data str =>
    "IFRB " ++ Byte.written rk ++ ", " ++ Byte.written fk ++ ", " ++ Byte.written data ++ ", " ++ BitString.written str

/-- `-> OK r` or `-> <FaultName>`. -/
def Rsp.written : Except BlockFault Byte → String
  | .ok r => "-> OK " ++ Byte.written r
  | .error f => "-> " ++ f.name

end Sys2Proof.Machine
end

