-- ==== Sys2Proof/Machine/ChipFacts.lean ====
section
/-! DEFINITION. The few facts the spec states about particular names, fields and codes of the target chip (10_state.md section 6, 92_eei_decisions.md P8). The block depends on none of them; a supplied schema or name table can be checked against them. -/

namespace Sys2Proof.Machine

/-- The field widths the document states: (register, field, width) (10_state.md R23). -/
def statedWidths : List (String × String × Nat) :=
  [ ("MARCSTATE", "state", 5), ("MDMCFG2", "MOD_FORMAT", 3), ("PKTCTRL0", "LENGTH_CONFIG", 2),
    ("MDMCFG2", "MANCHESTER_EN", 1), ("PKTCTRL0", "WHITE_DATA", 1) ]

/-- The registers used as whole bytes (10_state.md R23). -/
def wholeByteRegisters : List String :=
  ["FREQ2", "FREQ1", "FREQ0", "SYNC1", "SYNC0", "PKTLEN", "RSSI", "PARTNUM", "VERSION"]

/-- The fields that are a whole byte in whichever register they stand, which the document does not name
(10_state.md R23: DRATE_M is "at least 8 bits, hence a whole byte"). -/
def wholeByteFields : List String := ["DRATE_M"]

/-- The width 10_state.md R23 gives a field of a register, if it gives one; a whole-byte register is named as its own field. -/
def statedWidth? (register field : String) : Option Nat :=
  if wholeByteFields.contains field || (register == field && wholeByteRegisters.contains register) then some 8
  else (statedWidths.find? fun fact => fact.1 == register && fact.2.1 == field).map fun fact => fact.2.2

/-- A schema agrees with the stated widths: wherever `fieldKeys` gives a (register, field) pair a field key, `names`
gives the register an address, and the schema has the field, the field has the width R23 gives it, if any
(10_state.md R23: the facts are collected "so that a schema supplied to the model can be checked against them"). -/
def agreesWithStatedWidths (sch : Schema) (names : NameTable) (fieldKeys : List ((String × String) × Byte)) : Bool :=
  fieldKeys.all fun entry =>
    match statedWidth? entry.1.1 entry.1.2, names.lookup entry.1.1 with
    | some w, some rk =>
      match fieldIn sch rk entry.2 with
      | .ok fd => fd.width == w
      | .error _ => true
    | _, _ => true

/-- The modulation formats (10_state.md R24). -/
inductive ModFormat where
  | fsk2
  | gfsk
  | askOok
  | fsk4
  | msk
  deriving DecidableEq, Repr

/-- The three-bit codes of MOD_FORMAT (10_state.md R24). -/
def ModFormat.code : ModFormat → Byte
  | .fsk2   => 0b000
  | .gfsk   => 0b001
  | .askOok => 0b011
  | .fsk4   => 0b100
  | .msk    => 0b111

/-- The other direction of the map; 010, 101 and 110 are not in it (10_state.md R24). -/
def ModFormat.ofCode? (c : Byte) : Option ModFormat :=
  [ModFormat.fsk2, .gfsk, .askOok, .fsk4, .msk].find? fun m => m.code == c

/-- The packet length modes (10_state.md R25). -/
inductive LengthConfig where
  | fixed
  | variableLength
  | infinite
  deriving DecidableEq, Repr

/-- The two-bit codes of LENGTH_CONFIG; 11 is not in the map (10_state.md R25). -/
def LengthConfig.code : LengthConfig → Byte
  | .fixed          => 0b00
  | .variableLength => 0b01
  | .infinite       => 0b10

/-- The other direction of the map (10_state.md R25). -/
def LengthConfig.ofCode? (c : Byte) : Option LengthConfig :=
  [LengthConfig.fixed, .variableLength, .infinite].find? fun m => m.code == c

/-- IDLE, the only numbered state of MARCSTATE the document names (10_state.md R26). -/
def marcIdle : Byte := 0x01

/-- "the TX-ready state" (10_state.md R26). -/
def marcTxReady : Byte := 0x0D

/-- "the RX-FIFO-overflow state" (10_state.md R26). -/
def marcRxFifoOverflow : Byte := 0x11

/-- The strobes the document names (20_memory.md R35). -/
def strobeNames : List String :=
  ["SRES", "SCAL", "STX", "SRX", "SWOR", "SXOFF", "SFRX", "SFTX", "SIDLE", "SPWD"]

/-- A name's address lies in its class, as far as the spec states the class: parameter P8's requirement
(92_eei_decisions.md, OPEN parameters; 20_memory.md R31). -/
def nameInItsClass (name : String) (a : Byte) : Bool :=
  if strobeNames.contains name then addressClass a == .strobe
  else if name == "PATABLE" then a == 0x3E
  else if name == "FIFO" then a == 0x3F
  else if name == "MARCSTATE" then addressClass a == .status
  else true

/-- A name table that meets parameter P8's requirement. -/
def namesOk (names : NameTable) : Bool :=
  names.all fun p => nameInItsClass p.1 p.2

/-- The frequency word held in three whole-byte registers, most significant byte in FREQ2 (20_memory.md R40). -/
def freqWord (freq2 freq1 freq0 : Byte) : BitVec 24 := freq2 ++ freq1 ++ freq0

end Sys2Proof.Machine
end

