-- ==== Sys2Proof/Safety.lean ====
section
/-! DEFINITION. What claims use: a legal response register, and the invariant of the whole machine. -/

namespace Sys2Proof.Machine

/-- A response register the block can hold: a code of 60_exceptions.md R100, `RESULT = 0x00` on a fault (R107), and
before the first request the reset values (10_state.md R29). -/
def Rsp.legal (r : Rsp) : Bool :=
  statusCodes.contains r.status && (r.status == statusOk || r.result == 0x00) &&
    (r.valid || (r.status == statusOk && r.result == 0x00))

/-- What holds of every state of a built block: a well-formed schema (10_state.md R16), a legal response, the chip's
memory in canonical form. -/
def State.inv (s : State) : Bool :=
  s.schema.wf && s.rsp.legal && Memory.wf s.env.chip

/-- The response register after a step, where the step does not stop. -/
def outcomeRsp : Host.Outcome State Fault Refusal → Option Rsp
  | .next s => some s.rsp
  | .fault _ => none
  | .refused _ => none

end Sys2Proof.Machine
end

