-- ==== Sys2Proof/Certificates/Slice0/Obligations.lean ====
section
/-! DEFINITION. The statements for the provers, with the plain readings of the spec they are stated against. -/

open Sys2Proof Sys2Proof.Machine

/-! ## Plain readings of the spec, on natural numbers -/

namespace Sys2Proof.Reference

/-- A response as the pair (`STATUS`, `RESULT`) of numbers. -/
abbrev Response := Nat × Nat

/-- The fields of a request word by division: `OP VLEN A B DATA VAL` (30_encoding.md R50). -/
def op (w : Nat) : Nat := w / 2 ^ 36
def vlen (w : Nat) : Nat := w / 2 ^ 32 % 16
def fieldA (w : Nat) : Nat := w / 2 ^ 24 % 256
def fieldB (w : Nat) : Nat := w / 2 ^ 16 % 256
def data (w : Nat) : Nat := w / 2 ^ 8 % 256
def val (w : Nat) : Nat := w % 256

/-- 10_state.md R11 on numbers. -/
def validDesc (i w : Nat) : Bool := i ≤ 7 && 1 ≤ w && w ≤ 8 && i + w ≤ 8

/-- The bit-string of a request word is malformed (30_encoding.md R57). -/
def badString (w : Nat) : Bool := vlen w = 0 || 8 < vlen w || 2 ^ vlen w ≤ val w

/-- The request words 30_encoding.md R57 lists as illegal. -/
def illegal (w : Nat) : Bool :=
  match op w with
  | 1 => vlen w ≠ 0 || fieldB w ≠ 0 || val w ≠ 0
  | 2 => vlen w ≠ 0 || fieldB w ≠ 0
  | 3 => fieldB w ≠ 0 || badString w
  | 4 => vlen w ≠ 0 || fieldB w ≠ 0 || data w ≠ 0 || val w ≠ 0
  | 5 => vlen w ≠ 0 || data w ≠ 0 || val w ≠ 0
  | 6 => vlen w ≠ 0 || val w ≠ 0
  | 7 => vlen w ≠ 0
  | 8 => badString w
  | _ => true

/-- The field's value in a byte, by division: the field of width `w` starts `8 - (i + w)` bits above the bottom. -/
def extract (byte i w : Nat) : Nat := byte / 2 ^ (8 - (i + w)) % 2 ^ w

/-- The byte with the field's value replaced, by arithmetic. -/
def insert (byte i w v : Nat) : Nat :=
  byte - extract byte i w * 2 ^ (8 - (i + w)) + v * 2 ^ (8 - (i + w))

/-- An insert with a fitting value answers OK; `tooLarge` is the value test of the form (60_exceptions.md R102). -/
def insertResponse (tooLarge : Bool) (byte i w v : Nat) : Response :=
  if tooLarge then (2, 0) else (0, insert byte i w v)

/-- The layouts the schema gives the register key: none or one in a well-formed schema. -/
def layouts (sch : Schema) (rk : Nat) : List RegisterLayout :=
  (sch.filter fun e => e.key.toNat = rk).map RegisterEntry.layout

/-- The descriptors a layout gives the field key: none or one in a well-formed schema. -/
def descs (l : RegisterLayout) (fk : Nat) : List FieldDesc :=
  (l.filter fun e => e.key.toNat = fk).map FieldEntry.desc

/-- `fieldIn`, then `use` on the descriptor; UnknownRegister is 3, UnknownField is 4 (41_schema_lookup.md R81). -/
def throughSchema (sch : Schema) (rk fk : Nat) (use : FieldDesc → Response) : Response :=
  match layouts sch rk with
  | [] => (3, 0)
  | l :: _ =>
    match descs l fk with
    | [] => (4, 0)
    | fd :: _ => use fd

/-- The descriptor test of the direct forms (60_exceptions.md R101). -/
def direct (a : Nat) (use : Nat → Nat → Response) : Response :=
  if validDesc (a / 16) (a % 16) then use (a / 16) (a % 16) else (1, 0)

/-- The whole block as a pure function of the schema and the request word (00_scope.md R5, 10_state.md R20). -/
def response (sch : Schema) (w : Nat) : Response :=
  if illegal w then (0x0F, 0)
  else match op w with
    | 1 => direct (fieldA w) fun i n => (0, extract (data w) i n)
    | 2 => direct (fieldA w) fun i n => insertResponse (2 ^ n ≤ val w) (data w) i n (val w)
    | 3 => direct (fieldA w) fun i n => insertResponse (n < vlen w) (data w) i n (val w)
    | 4 => match layouts sch (fieldA w) with
      | [] => (3, 0)
      | l :: _ => (0, l.length)
    | 5 => throughSchema sch (fieldA w) (fieldB w) fun fd => (0, 16 * fd.index + fd.width)
    | 6 => throughSchema sch (fieldA w) (fieldB w) fun fd => (0, extract (data w) fd.index fd.width)
    | 7 => throughSchema sch (fieldA w) (fieldB w) fun fd =>
        insertResponse (2 ^ fd.width ≤ val w) (data w) fd.index fd.width (val w)
    | _ => throughSchema sch (fieldA w) (fieldB w) fun fd =>
        insertResponse (fd.width < vlen w) (data w) fd.index fd.width (val w)

/-- The register key of a schema form. -/
def registerKey? : Instr → Option Byte
  | .lay rk | .fld rk _ | .xfr rk _ _ | .ifr rk _ _ _ | .ifrb rk _ _ _ => some rk
  | .ext _ _ | .ins _ _ _ | .insb _ _ _ => none

/-- The register and field key of a form that looks a field up. -/
def fieldKeys? : Instr → Option (Byte × Byte)
  | .fld rk fk | .xfr rk fk _ | .ifr rk fk _ _ | .ifrb rk fk _ _ => some (rk, fk)
  | .lay _ | .ext _ _ | .ins _ _ _ | .insb _ _ _ => none

/-- The presented descriptor of a direct form. -/
def presented? : Instr → Option FieldDesc
  | .ext fd _ | .ins fd _ _ | .insb fd _ _ => some fd
  | .lay _ | .fld _ _ | .xfr _ _ _ | .ifr _ _ _ _ | .ifrb _ _ _ _ => none

/-- The schema gives register key `rk` and field key `fk` the descriptor `fd`. -/
def Holds (sch : Schema) (rk fk : Byte) (fd : FieldDesc) : Prop :=
  ∃ e ∈ sch, e.key = rk ∧ ∃ f ∈ e.layout, f.key = fk ∧ f.desc = fd

/-- The schema has no entry for the register key. -/
def NoRegister (sch : Schema) (rk : Byte) : Prop := ∀ e ∈ sch, e.key ≠ rk

/-- The schema has an entry for the register key, and its layout lacks the field key. -/
def NoField (sch : Schema) (rk fk : Byte) : Prop :=
  ∃ e ∈ sch, e.key = rk ∧ ∀ f ∈ e.layout, f.key ≠ fk

/-- `s` with the response register holding an OK result. -/
def withOk (s : State) (r : Byte) : State := { s with rsp := ⟨true, 0x00, r⟩ }

/-- `s` with the response register holding a fault code. -/
def withFault (s : State) (code : Byte) : State := { s with rsp := ⟨true, code, 0x00⟩ }

/-- `s` with the rest of the host's plan. -/
def afterAction (s : State) (rest : List HostAction) : State :=
  { s with env := { s.env with agenda := rest } }

/-- The address is in one of the classes of 20_memory.md R31; the others are in no class. -/
abbrev inClass (a : Byte) : Prop :=
  a.toNat ≤ 0x2E ∨ 0x30 ≤ a.toNat ∧ a.toNat ≤ 0x3F ∨ 0xF0 ≤ a.toNat ∧ a.toNat ≤ 0xFD

/-- The address is a command strobe (20_memory.md R31). -/
abbrev isStrobe (a : Byte) : Prop := 0x30 ≤ a.toNat ∧ a.toNat ≤ 0x3D

/-- The fixture schema FX (95_test_vectors.md section 2.4). -/
def fixture : Schema :=
  [ ⟨0x08, [⟨0x01, ⟨0, 3⟩⟩, ⟨0x02, ⟨3, 2⟩⟩, ⟨0x03, ⟨5, 2⟩⟩, ⟨0x04, ⟨7, 1⟩⟩]⟩,
    ⟨0x12, [⟨0x01, ⟨0, 1⟩⟩, ⟨0x02, ⟨1, 3⟩⟩, ⟨0x05, ⟨5, 3⟩⟩]⟩,
    ⟨0xF5, [⟨0x01, ⟨3, 5⟩⟩]⟩,
    ⟨0x3E, [⟨0x01, ⟨0, 8⟩⟩]⟩,
    ⟨0x20, []⟩ ]

end Sys2Proof.Reference

open Sys2Proof.Reference

/-! ## Reset, steps and decoding -/

/-- 10_state.md R29 and 70_reset_and_hazards.md R120: the response register after reset; a reset of a running block
clears it and touches neither the schema nor anything outside the block; after reset the block is idle. That a running
block is reset by the host, between two steps, is the model's choice (log entry 20). -/
def Obligations.ResetClearsOnlyTheResponse : Prop :=
  State.reset.rsp = ⟨false, 0x00, 0x00⟩ ∧ step State.reset = .next State.reset ∧
  ∀ (s : State) (rest : List HostAction), s.env.agenda = .resetBlock :: rest →
    step s = .next { s with rsp := ⟨false, 0x00, 0x00⟩, env := { s.env with agenda := rest } }

/-- 00_scope.md R4: with no request the block does nothing; with one it takes one step, which writes the response
register and nothing else, from the request word and the schema alone. The agenda is the model's input (log entry 1). -/
def Obligations.OneStepPerRequestWritesOnlyTheResponse : Prop :=
  (∀ s : State, s.env.agenda = [] → step s = .next s) ∧
  ∃ answer : Schema → Request → Rsp, ∀ (s : State) (w : Request) (rest : List HostAction),
    s.env.agenda = .request w :: rest →
    step s = .next { s with rsp := answer s.schema w, env := { s.env with agenda := rest } }

/-- The step runs the decoded instruction: its request is taken from the agenda, then the instruction executes. -/
def Obligations.StepRunsTheDecodedInstruction : Prop :=
  ∀ (s : State) (w : Request) (rest : List HostAction) (i : Instr),
    s.env.agenda = .request w :: rest → decode w = .ok i → step s = exec i (afterAction s rest)

/-- 30_encoding.md R57, 60_exceptions.md R105: exactly the illegal words are answered with IllegalRequest. -/
def Obligations.ExactlyIllegalWordsAnswerIllegalRequest : Prop :=
  ∀ (s : State) (w : Request) (rest : List HostAction), s.env.agenda = .request w :: rest →
    (illegal w.toNat = true → step s = .next (withFault (afterAction s rest) 0x0F)) ∧
    (illegal w.toNat = false → ∀ t, step s = .next t → t.rsp.status ≠ 0x0F)

/-- 30_encoding.md R54: the decoder accepts a word exactly when it matches a row of the opcode map with the row's
further conditions, it then gives that row's operation, and no word matches two rows. -/
def Obligations.DecoderAcceptsExactlyTheOpcodeMap : Prop :=
  (∀ w : Request, (∃ i, decode w = .ok i) ↔ ∃ row ∈ opcodeTable, row.accepts w = true) ∧
  (∀ (w : Request) (i : Instr) (row : OpcodeRow), decode w = .ok i → row ∈ opcodeTable →
    w &&& row.mask = row.pattern → row.mnemonic = i.mnemonic) ∧
  (∀ (w : Request) (r q : OpcodeRow), r ∈ opcodeTable → q ∈ opcodeTable →
    w &&& r.mask = r.pattern → w &&& q.mask = q.pattern → r = q)

/-- Decode of encode is the instruction, for every well-formed instruction with every operand. -/
def Obligations.DecodeOfEncodeIsTheInstruction : Prop :=
  ∀ i : Instr, i.wellFormed = true → decode (encode i) = .ok i

/-- Encode of decode is the word: one word for each instruction, and only well-formed instructions come out. -/
def Obligations.EncodeOfDecodeIsTheWord : Prop :=
  ∀ (w : Request) (i : Instr), decode w = .ok i → encode i = w ∧ i.wellFormed = true

/-- Words written out from the spec's encodings, one for each operation and one reserved opcode. -/
def Obligations.SampleWordsDecode : Prop :=
  decode 0x1071000500 = .ok (.ext ⟨7, 1⟩ 0x05) ∧
  decode 0x2052000903 = .ok (.ins ⟨5, 2⟩ 0x09 0x03) ∧
  decode 0x3252000903 = .ok (.insb ⟨5, 2⟩ 0x09 ⟨2, 0x03⟩) ∧
  decode 0x4008000000 = .ok (.lay 0x08) ∧
  decode 0x5008030000 = .ok (.fld 0x08 0x03) ∧
  decode 0x60F5012D00 = .ok (.xfr 0xF5 0x01 0x2D) ∧
  decode 0x700802B501 = .ok (.ifr 0x08 0x02 0xB5 0x01) ∧
  decode 0x8208030903 = .ok (.ifrb 0x08 0x03 0x09 ⟨2, 0x03⟩) ∧
  decode 0x9000000000 = .error .reservedOpcode

/-- 30_encoding.md R59: a request on a byte-wide link is its five bytes, most significant first, and reads back as
the same request; a response is `STATUS` then `RESULT`. -/
def Obligations.WireFormIsMostSignificantByteFirst : Prop :=
  (∀ (w : Request) (rest : List Byte),
    requestBytes w = [BitVec.ofNat 8 (w.toNat / 2 ^ 32), BitVec.ofNat 8 (w.toNat / 2 ^ 24),
      BitVec.ofNat 8 (w.toNat / 2 ^ 16), BitVec.ofNat 8 (w.toNat / 2 ^ 8), BitVec.ofNat 8 w.toNat] ∧
    requestOfBytes (requestBytes w ++ rest) = some (w, rest) ∧
    decodeBytes (requestBytes w ++ rest) = some (decode w, rest)) ∧
  ∀ r : Rsp, r.bytes = [BitVec.ofNat 8 (r.word.toNat / 2 ^ 8), BitVec.ofNat 8 r.word.toNat]

/-! ## The operations with a direct descriptor -/

/-- 40_codec_direct.md R70: EXT on every descriptor and every byte, and the request word that carries it. -/
def Obligations.ExtAnswersTheFieldRightAligned : Prop :=
  (∀ (i w : Nat) (byte : Byte) (s : State),
    exec (.ext ⟨i, w⟩ byte) s = .next
      (if i ≤ 7 ∧ 1 ≤ w ∧ w ≤ 8 ∧ i + w ≤ 8 then
        withOk s (BitVec.ofNat 8 ((byte.toNat >>> (8 - (i + w))) &&& ((1 <<< w) - 1)))
      else withFault s 0x01)) ∧
  ∀ a byte : Byte, decode (BitVec.ofNat 40 (1 * 2 ^ 36 + a.toNat * 2 ^ 24 + byte.toNat * 2 ^ 8)) =
    .ok (.ext ⟨a.toNat / 16, a.toNat % 16⟩ byte)

/-- INS on every descriptor, byte and value (40_codec_direct.md section 2). The spec marks the insert formula as its own
derivation and the order of the checks as its own decision D13. -/
def Obligations.InsReplacesTheField : Prop :=
  ∀ (i w : Nat) (byte v : Byte) (s : State),
    exec (.ins ⟨i, w⟩ byte v) s = .next
      (if ¬ (i ≤ 7 ∧ 1 ≤ w ∧ w ≤ 8 ∧ i + w ≤ 8) then withFault s 0x01
      else if (1 <<< w) - 1 < v.toNat then withFault s 0x02
      else withOk s (BitVec.ofNat 8
        ((byte.toNat &&& (0xFF - (((1 <<< w) - 1) <<< (8 - (i + w))))) ||| (v.toNat <<< (8 - (i + w))))))

/-- 40_codec_direct.md R72: INSB on every descriptor, byte and well-formed bit-string; a string longer than the field
faults whatever its bits are. -/
def Obligations.InsbReplacesTheFieldWithTheString : Prop :=
  ∀ (i w : Nat) (byte : Byte) (str : BitString) (s : State), str.wellFormed = true →
    exec (.insb ⟨i, w⟩ byte str) s = .next
      (if ¬ (i ≤ 7 ∧ 1 ≤ w ∧ w ≤ 8 ∧ i + w ≤ 8) then withFault s 0x01
      else if w < str.len then withFault s 0x02
      else withOk s (BitVec.ofNat 8
        ((byte.toNat &&& (0xFF - (((1 <<< w) - 1) <<< (8 - (i + w))))) |||
          (str.bits.toNat <<< (8 - (i + w)))))) ∧
    (i ≤ 7 ∧ 1 ≤ w ∧ w ≤ 8 ∧ i + w ≤ 8 → str.len ≤ w →
      exec (.insb ⟨i, w⟩ byte str) s = exec (.ins ⟨i, w⟩ byte str.bits) s)

/-! ## The schema lookups -/

/-- 41_schema_lookup.md R82: LAY gives the number of entries of the register's layout, 0 to 8, and UnknownRegister for
an absent register. -/
def Obligations.LayCountsTheLayout : Prop :=
  (∀ (rk : Byte) (s : State), s.schema.wf = true →
    (∀ e ∈ s.schema, e.key = rk → e.layout.length ≤ 8 ∧
      exec (.lay rk) s = .next (withOk s (BitVec.ofNat 8 e.layout.length))) ∧
    (NoRegister s.schema rk → exec (.lay rk) s = .next (withFault s 0x03))) ∧
  ∀ rk : Byte, decode (BitVec.ofNat 40 (4 * 2 ^ 36 + rk.toNat * 2 ^ 24)) = .ok (.lay rk)

/-- 41_schema_lookup.md R83: FLD gives the FD byte of the stored descriptor, which is never 0x00; UnknownRegister and
UnknownField otherwise. -/
def Obligations.FldAnswersTheStoredDescriptor : Prop :=
  (∀ (rk fk : Byte) (s : State), s.schema.wf = true →
    (∀ fd, Holds s.schema rk fk fd → 0 < 16 * fd.index + fd.width ∧ 16 * fd.index + fd.width < 256 ∧
      exec (.fld rk fk) s = .next (withOk s (BitVec.ofNat 8 (16 * fd.index + fd.width)))) ∧
    (NoRegister s.schema rk → exec (.fld rk fk) s = .next (withFault s 0x03)) ∧
    (NoField s.schema rk fk → exec (.fld rk fk) s = .next (withFault s 0x04))) ∧
  ∀ rk fk : Byte, decode (BitVec.ofNat 40 (5 * 2 ^ 36 + rk.toNat * 2 ^ 24 + fk.toNat * 2 ^ 16)) = .ok (.fld rk fk)

/-- XFR (42_register_forms.md section 1; the spec marks the rule as derived): the field the schema gives the keys,
right-aligned. -/
def Obligations.XfrAnswersTheStoredField : Prop :=
  ∀ (rk fk byte : Byte) (s : State), s.schema.wf = true →
    (∀ fd, Holds s.schema rk fk fd → exec (.xfr rk fk byte) s = .next (withOk s (BitVec.ofNat 8
      ((byte.toNat >>> (8 - (fd.index + fd.width))) &&& ((1 <<< fd.width) - 1))))) ∧
    (NoRegister s.schema rk → exec (.xfr rk fk byte) s = .next (withFault s 0x03)) ∧
    (NoField s.schema rk fk → exec (.xfr rk fk byte) s = .next (withFault s 0x04))

/-- IFR (42_register_forms.md section 2; the spec marks the rule as derived): the byte with the stored field replaced,
or the fault in the order UnknownRegister, UnknownField, ValueOutOfRange. -/
def Obligations.IfrReplacesTheStoredField : Prop :=
  ∀ (rk fk byte v : Byte) (s : State), s.schema.wf = true →
    (∀ fd, Holds s.schema rk fk fd → exec (.ifr rk fk byte v) s = .next
      (if (1 <<< fd.width) - 1 < v.toNat then withFault s 0x02
      else withOk s (BitVec.ofNat 8
        ((byte.toNat &&& (0xFF - (((1 <<< fd.width) - 1) <<< (8 - (fd.index + fd.width))))) |||
          (v.toNat <<< (8 - (fd.index + fd.width))))))) ∧
    (NoRegister s.schema rk → exec (.ifr rk fk byte v) s = .next (withFault s 0x03)) ∧
    (NoField s.schema rk fk → exec (.ifr rk fk byte v) s = .next (withFault s 0x04))

/-- IFRB (42_register_forms.md section 3; the spec marks the rule as derived): the same with a bit-string. -/
def Obligations.IfrbReplacesTheStoredFieldWithTheString : Prop :=
  ∀ (rk fk byte : Byte) (str : BitString) (s : State), s.schema.wf = true → str.wellFormed = true →
    (∀ fd, Holds s.schema rk fk fd → exec (.ifrb rk fk byte str) s = .next
      (if fd.width < str.len then withFault s 0x02
      else withOk s (BitVec.ofNat 8
        ((byte.toNat &&& (0xFF - (((1 <<< fd.width) - 1) <<< (8 - (fd.index + fd.width))))) |||
          (str.bits.toNat <<< (8 - (fd.index + fd.width))))))) ∧
    (NoRegister s.schema rk → exec (.ifrb rk fk byte str) s = .next (withFault s 0x03)) ∧
    (NoField s.schema rk fk → exec (.ifrb rk fk byte str) s = .next (withFault s 0x04))

/-- Equivalence (42_register_forms.md R93, which the spec marks as derived): when FLD answers OK with the FD byte F,
the schema forms answer as the direct forms on F; when FLD faults, the three fault with the same code. -/
def Obligations.SchemaFormsAgreeWithDirectForms : Prop :=
  ∀ (rk fk byte v : Byte) (str : BitString) (s t : State), s.schema.wf = true →
    exec (.fld rk fk) s = .next t →
    (t.rsp.status = 0x00 →
      exec (.xfr rk fk byte) s = exec (.ext (fdOfByte t.rsp.result) byte) s ∧
      exec (.ifr rk fk byte v) s = exec (.ins (fdOfByte t.rsp.result) byte v) s ∧
      exec (.ifrb rk fk byte str) s = exec (.insb (fdOfByte t.rsp.result) byte str) s) ∧
    (t.rsp.status ≠ 0x00 →
      exec (.xfr rk fk byte) s = .next t ∧ exec (.ifr rk fk byte v) s = .next t ∧
      exec (.ifrb rk fk byte str) s = .next t)

/-- A stored descriptor is valid (41_schema_lookup.md R84, which the spec marks as derived): the FD byte FLD answers
is accepted by EXT, INS and INSB without InvalidFieldSpec. -/
def Obligations.FldByteIsAlwaysAValidDescriptor : Prop :=
  ∀ (rk fk byte v : Byte) (str : BitString) (s t u : State), s.schema.wf = true →
    exec (.fld rk fk) s = .next t → t.rsp.status = 0x00 →
    (exec (.ext (fdOfByte t.rsp.result) byte) s = .next u ∨
      exec (.ins (fdOfByte t.rsp.result) byte v) s = .next u ∨
      exec (.insb (fdOfByte t.rsp.result) byte str) s = .next u) →
    u.rsp.status ≠ 0x01

/-! ## Faults -/

/-- 60_exceptions.md R101: InvalidFieldSpec is reported exactly by EXT, INS and INSB on an invalid descriptor; 220 of
the 256 FD bytes raise it. -/
def Obligations.InvalidFieldSpecExactly : Prop :=
  (∀ (i : Instr) (s t : State), s.schema.wf = true → exec i s = .next t →
    (t.rsp.status = 0x01 ↔ ∃ fd, presented? i = some fd ∧
      (fd.index > 7 ∨ fd.width = 0 ∨ fd.width > 8 ∨ fd.index + fd.width > 8))) ∧
  ((List.range 256).filter fun n => !(fdOfByte (BitVec.ofNat 8 n)).valid).length = 220

/-- 60_exceptions.md R102: ValueOutOfRange is reported exactly by the inserts on a known field the value does not fit:
`VAL ≥ 2^w` for the numeric forms, `VLEN > w` for the bit-string forms; never for `w = 8`. -/
def Obligations.ValueOutOfRangeExactly : Prop :=
  ∀ (i : Instr) (s t : State), s.schema.wf = true → i.wellFormed = true → exec i s = .next t →
    (t.rsp.status = 0x02 ↔
      (∃ fd byte v, i = .ins fd byte v ∧ fd.valid = true ∧ 2 ^ fd.width ≤ v.toNat) ∨
      (∃ fd byte str, i = .insb fd byte str ∧ fd.valid = true ∧ fd.width < str.len) ∨
      (∃ rk fk byte v fd, i = .ifr rk fk byte v ∧ Holds s.schema rk fk fd ∧ 2 ^ fd.width ≤ v.toNat) ∨
      (∃ rk fk byte str fd, i = .ifrb rk fk byte str ∧ Holds s.schema rk fk fd ∧ fd.width < str.len)) ∧
    (∀ fd, (presented? i = some fd ∨ ∃ rk fk, fieldKeys? i = some (rk, fk) ∧ Holds s.schema rk fk fd) →
      fd.width = 8 → t.rsp.status ≠ 0x02)

/-- 60_exceptions.md R103: UnknownRegister is reported by LAY, FLD, XFR, IFR and IFRB exactly when no entry of the
schema has the register key, in every state. -/
def Obligations.UnknownRegisterExactly : Prop :=
  ∀ (i : Instr) (s t : State), exec i s = .next t →
    (t.rsp.status = 0x03 ↔ ∃ rk, registerKey? i = some rk ∧ NoRegister s.schema rk)

/-- 60_exceptions.md R104: UnknownField is reported by FLD, XFR, IFR and IFRB exactly when the register has an entry
whose layout lacks the field key. -/
def Obligations.UnknownFieldExactly : Prop :=
  ∀ (i : Instr) (s t : State), s.schema.wf = true → exec i s = .next t →
    (t.rsp.status = 0x04 ↔ ∃ rk fk, fieldKeys? i = some (rk, fk) ∧ NoField s.schema rk fk)

/-- 60_exceptions.md R106: of the fault conditions that hold, the first in the order IllegalRequest, UnknownRegister,
UnknownField, InvalidFieldSpec, ValueOutOfRange is the one reported. -/
def Obligations.FaultPriority : Prop :=
  ∀ (s t : State) (w : Request) (rest : List HostAction), s.schema.wf = true →
    s.env.agenda = .request w :: rest → step s = .next t →
    (∀ r, decode w = .error r → t.rsp.status = 0x0F) ∧
    (∀ i, decode w = .ok i →
      (∀ rk, registerKey? i = some rk → NoRegister s.schema rk → t.rsp.status = 0x03) ∧
      (∀ rk fk, fieldKeys? i = some (rk, fk) → NoField s.schema rk fk → t.rsp.status = 0x04) ∧
      (∀ fd, presented? i = some fd → fd.valid = false → t.rsp.status = 0x01) ∧
      (∀ fd, (presented? i = some fd ∧ fd.valid = true ∨
          ∃ rk fk, fieldKeys? i = some (rk, fk) ∧ Holds s.schema rk fk fd) →
        t.rsp.status = 0x02 ∨ t.rsp.status = 0x00))

/-- 60_exceptions.md R107: a faulting request ends its step with VALID set, the code, `RESULT = 0x00`, and nothing else
changed; the host's next action is what it was. -/
def Obligations.FaultChangesOnlyTheResponse : Prop :=
  ∀ (s t : State) (w : Request) (rest : List HostAction), s.env.agenda = .request w :: rest →
    step s = .next t → t.rsp.status ≠ 0x00 →
    ∃ code ∈ [0x01, 0x02, 0x03, 0x04, (0x0F : Byte)], t = withFault (afterAction s rest) code

/-- 60_exceptions.md R108: after a fault the next request is executed exactly as if the fault had not happened. -/
def Obligations.RequestAfterAFaultRunsNormally : Prop :=
  ∀ (s t : State) (w v : Request) (rest : List HostAction),
    s.env.agenda = .request w :: .request v :: rest → step s = .next t → t.rsp.status ≠ 0x00 →
    step t = step (afterAction s (.request v :: rest))

/-! ## What holds of every operation -/

/-- Every operation completes in every state with VALID set, and leaves the schema, every byte of the target chip's
memory and everything else outside the block as it was (00_scope.md R4; 10_state.md R20; 20_memory.md section 1). -/
def Obligations.EveryOperationCompletesAndTouchesNoMemory : Prop :=
  ∀ (i : Instr) (s : State), ∃ t, exec i s = .next t ∧ t.rsp.valid = true ∧ t.schema = s.schema ∧
    t.env = s.env ∧ (∀ a : Byte, chipByte t.env a = chipByte s.env a) ∧
    ∀ a : Nat, Memory.read? t.env.chip a = Memory.read? s.env.chip a

/-- 00_scope.md R5: the answer depends on the request and the schema only, not on any earlier request or on anything
outside the block. -/
def Obligations.AnswerDependsOnlyOnRequestAndSchema : Prop :=
  ∀ (s u s' u' : State) (w : Request) (rest rest' : List HostAction),
    s.env.agenda = .request w :: rest → u.env.agenda = .request w :: rest' → s.schema = u.schema →
    step s = .next s' → step u = .next u' → s'.rsp = u'.rsp

/-- 10_state.md R17: no step of any kind changes the schema. -/
def Obligations.SchemaNeverChanges : Prop :=
  ∀ s t : State, step s = .next t → t.schema = s.schema

/-- The block is the pure function of the schema and the request word that the spec describes, computed here by
division and remainder on natural numbers (00_scope.md R5; 10_state.md R20 says the two models are equal). -/
def Obligations.BlockIsThePureFunction : Prop :=
  ∀ (s : State) (w : Request) (rest : List HostAction), s.schema.wf = true →
    s.env.agenda = .request w :: rest →
    step s = .next { afterAction s rest with
      rsp := ⟨true, BitVec.ofNat 8 (response s.schema w.toNat).1, BitVec.ofNat 8 (response s.schema w.toNat).2⟩ } ∧
    (response s.schema w.toNat).1 < 256 ∧ (response s.schema w.toNat).2 < 256

/-- Every step, of the block or of the host, keeps the invariant: a well-formed schema, a response register with a
legal code and no result on a fault, the chip's memory in canonical form. -/
def Obligations.EveryStepKeepsTheInvariant : Prop :=
  ∀ s t : State, s.inv = true → step s = .next t → t.inv = true

/-- The invariant holds at reset, and of every block that is built: an ill-formed schema builds none
(10_state.md R16, 70_reset_and_hazards.md R121). -/
def Obligations.BuiltBlocksMeetTheInvariant : Prop :=
  State.reset.inv = true ∧
  (∀ (sch : Schema) (s : State), State.construct sch = some s →
    s.inv = true ∧ s.schema = sch ∧ s.rsp = ⟨false, 0x00, 0x00⟩) ∧
  ∀ sch : Schema, State.construct sch = none ↔ ¬ (
    (sch.map fun e => e.key).Nodup ∧ ∀ e ∈ sch,
      (e.layout.map fun f => f.key).Nodup ∧
      (∀ f ∈ e.layout, f.desc.index ≤ 7 ∧ 1 ≤ f.desc.width ∧ f.desc.width ≤ 8 ∧
        f.desc.index + f.desc.width ≤ 8) ∧
      (e.layout.Pairwise fun f g => f.desc.pmask &&& g.desc.pmask = 0) ∧
      (e.layout.map fun f => f.desc.width).sum ≤ 8)

/-! ## The laws of the codec -/

/-- The multiplexer form of the extract (40_codec_direct.md R73, which the spec marks as derived). -/
def Obligations.ExtractIsAMultiplexer : Prop :=
  ∀ (fd : FieldDesc) (byte : Byte) (s t : State), fd.valid = true → exec (.ext fd byte) s = .next t →
    ∀ n < 8, t.rsp.result.getLsbD n = (decide (n < fd.width) && byte.getLsbD (n + fd.shift))

/-- The multiplexer form of the insert, in value numbering and in field indexing (40_codec_direct.md R73, which the
spec marks as derived). -/
def Obligations.InsertIsAMultiplexer : Prop :=
  ∀ (fd : FieldDesc) (byte v : Byte) (s t : State), fd.valid = true → v.toNat < 2 ^ fd.width →
    exec (.ins fd byte v) s = .next t →
    (∀ n < 8, t.rsp.result.getLsbD n =
      if fd.shift ≤ n ∧ n < fd.shift + fd.width then v.getLsbD (n - fd.shift) else byte.getLsbD n) ∧
    (∀ k < 8, t.rsp.result.getLsbD (7 - k) =
      if fd.index ≤ k ∧ k < fd.index + fd.width then v.getLsbD ((fd.index + fd.width - 1) - k)
      else byte.getLsbD (7 - k))

/-- 40_codec_direct.md R74: inserting the extracted value gives the byte back, for every valid descriptor and byte. -/
def Obligations.RoundTrip : Prop :=
  ∀ (fd : FieldDesc) (byte : Byte) (s : State), fd.valid = true →
    ∃ t, exec (.ext fd byte) s = .next t ∧ t.rsp.status = 0x00 ∧
      exec (.ins fd byte t.rsp.result) s = .next (withOk s byte)

/-- 40_codec_direct.md R75: a successful insert never alters a bit outside the field, in each of the four inserting
operations. -/
def Obligations.InsertNeverAltersOtherBits : Prop :=
  ∀ (fd : FieldDesc) (byte v rk fk : Byte) (str : BitString) (s t : State), s.schema.wf = true →
    (exec (.ins fd byte v) s = .next t ∨ exec (.insb fd byte str) s = .next t ∨
      (Holds s.schema rk fk fd ∧ (exec (.ifr rk fk byte v) s = .next t ∨ exec (.ifrb rk fk byte str) s = .next t))) →
    str.wellFormed = true → t.rsp.status = 0x00 →
    t.rsp.result &&& ~~~BitVec.ofNat 8 fd.pmask = byte &&& ~~~BitVec.ofNat 8 fd.pmask ∧
    ∀ k < 8, fd.covers k = false → t.rsp.result.getLsbD (7 - k) = byte.getLsbD (7 - k)

/-- Read-back (40_codec_direct.md R76, which the spec marks as derived): a field reads back as the value inserted. -/
def Obligations.ReadBack : Prop :=
  ∀ (fd : FieldDesc) (byte v : Byte) (s : State), fd.valid = true → v.toNat ≤ fd.mask →
    ∃ t, exec (.ins fd byte v) s = .next t ∧ t.rsp.status = 0x00 ∧
      exec (.ext fd t.rsp.result) s = .next (withOk s v)

/-- Composition, same field (40_codec_direct.md R78(a), which the spec marks as derived): the last insert wins. -/
def Obligations.LastInsertWins : Prop :=
  ∀ (fd : FieldDesc) (byte u v : Byte) (s : State), fd.valid = true → u.toNat ≤ fd.mask → v.toNat ≤ fd.mask →
    ∃ t, exec (.ins fd byte u) s = .next t ∧ exec (.ins fd t.rsp.result v) s = exec (.ins fd byte v) s

/-- Composition, disjoint fields (40_codec_direct.md R78(b), which the spec marks as derived): inserts commute and do
not change each other's extract. -/
def Obligations.DisjointFieldsAreIndependent : Prop :=
  ∀ (f g : FieldDesc) (byte u v : Byte) (s : State), f.valid = true → g.valid = true → f.overlaps g = false →
    u.toNat ≤ f.mask → v.toNat ≤ g.mask →
    ∃ t r, exec (.ins f byte u) s = .next t ∧ exec (.ins g byte v) s = .next r ∧
      exec (.ins g t.rsp.result v) s = exec (.ins f r.rsp.result u) s ∧
      exec (.ext g t.rsp.result) s = exec (.ext g byte) s

/-- The decoder's outputs (41_schema_lookup.md R85, which the spec marks as derived): two distinct fields of one
register select disjoint bits, so a field insert leaves every other field's extract unchanged. -/
def Obligations.FieldsOfOneRegisterAreIndependent : Prop :=
  ∀ (rk fk gk byte v : Byte) (f g : FieldDesc) (s t : State), s.schema.wf = true → fk ≠ gk →
    Holds s.schema rk fk f → Holds s.schema rk gk g → exec (.ifr rk fk byte v) s = .next t →
    t.rsp.status = 0x00 →
    f.pmask &&& g.pmask = 0 ∧ exec (.xfr rk gk t.rsp.result) s = exec (.xfr rk gk byte) s

/-! ## Descriptors, layouts and bit-strings -/

/-- 10_state.md R12: the quantities of a valid descriptor and their ranges. -/
def Obligations.DescriptorQuantities : Prop :=
  ∀ fd : FieldDesc, fd.valid = true →
    fd.shift = 8 - (fd.index + fd.width) ∧ fd.shift ≤ 7 ∧ fd.shift + fd.width = 8 - fd.index ∧
    fd.mask = 2 ^ fd.width - 1 ∧ fd.mask ∈ [0x01, 0x03, 0x07, 0x0F, 0x1F, 0x3F, 0x7F, 0xFF] ∧
    fd.pmask = fd.mask * 2 ^ fd.shift ∧ fd.pmask ≤ 0xFF

/-- The bits a valid descriptor covers are the one-bits of its positioned mask (10_state.md R13, which the spec marks
as derived). -/
def Obligations.PositionedMaskCoversExactlyTheField : Prop :=
  ∀ fd : FieldDesc, fd.valid = true → ∀ n < 8,
    (fd.pmask.testBit n = true ↔ fd.index ≤ 7 - n ∧ 7 - n < fd.index + fd.width) ∧
    (fd.pmask.testBit n = true ↔ 8 - fd.index - fd.width ≤ n ∧ n ≤ 7 - fd.index)

/-- 10_state.md R15: two valid descriptors overlap exactly when their index intervals meet, and within one layout of a
well-formed schema no two fields do. -/
def Obligations.OverlapIsIntervalIntersection : Prop :=
  (∀ f g : FieldDesc, f.valid = true → g.valid = true →
    (f.overlaps g = true ↔ f.pmask &&& g.pmask ≠ 0) ∧
    (f.overlaps g = true ↔ f.index < g.index + g.width ∧ g.index < f.index + f.width)) ∧
  ∀ sch : Schema, sch.wf = true → ∀ e ∈ sch, e.layout.Pairwise fun f g =>
    f.desc.pmask &&& g.desc.pmask = 0 ∧
      ¬ (f.desc.index < g.desc.index + g.desc.width ∧ g.desc.index < f.desc.index + f.desc.width)

/-- A layout of valid, pairwise non-overlapping descriptors has widths that sum to at most 8 and at most 8 fields:
WF5 follows from WF3 and WF4 (a remark inside 10_state.md R16; 00_scope.md parameter P5, which the spec marks as derived). -/
def Obligations.WidthsFitFollowsFromDisjointness : Prop :=
  ∀ l : RegisterLayout, (∀ f ∈ l, f.desc.valid = true) →
    (l.Pairwise fun f g => f.desc.overlaps g.desc = false) →
    (l.map fun f => f.desc.width).sum ≤ 8 ∧ l.length ≤ 8

/-- 30_encoding.md R56: padding a bit-string with zeros on the left leaves its numeric value `VAL`, its first character
is `VAL[VLEN-1]` and its last `VAL[0]`. -/
def Obligations.LeftPaddingKeepsTheValue : Prop :=
  ∀ (str : BitString) (w : Nat), str.wellFormed = true →
    str.chars.length = str.len ∧
    str.chars.head? = some (str.bits.getLsbD (str.len - 1)) ∧ str.chars.getLast? = some (str.bits.getLsbD 0) ∧
    valueOfChars str.chars = str.bits.toNat ∧
    (str.len ≤ w → (padLeft w str.chars).length = w ∧ valueOfChars (padLeft w str.chars) = str.bits.toNat)

/-- The conversion from a datasheet's bit numbers (a remark inside 70_reset_and_hazards.md R123, which the spec marks as
derived): the descriptor is valid and EXT with it takes exactly the bits `hi` down to `lo`. -/
def Obligations.DatasheetBitsConvert : Prop :=
  ∀ (hi lo : Nat) (byte : Byte) (s : State), lo ≤ hi → hi ≤ 7 →
    exec (.ext (FieldDesc.ofDatasheet hi lo) byte) s =
      .next (withOk s (BitVec.ofNat 8 (byte.toNat / 2 ^ lo % 2 ^ (hi - lo + 1))))

/-! ## The environment -/

/-- 20_memory.md R33, R34: what the two byte primitives send and return on a configuration register, and that a read
after a write gives the byte written while every other register is as before (the model's reading, log entries 6 and 22). -/
def Obligations.ReadAfterWriteOfAConfigurationRegister : Prop :=
  ∀ (s : State) (a v : Byte) (rest : List HostAction), a.toNat ≤ 0x2E →
    s.env.agenda = .writeByte (.int a.toNat) v :: .readByte (.int a.toNat) :: rest →
    ∃ t u, step s = .next t ∧ step t = .next u ∧
      t.env.sent = [[0x00 ||| a, v]] ∧ t.env.received = [] ∧
      u.env.sent = [[0x80 ||| a, 0x00]] ∧ u.env.received = [v] ∧
      u.rsp = s.rsp ∧ u.env.agenda = rest ∧
      ∀ b : Byte, b ≠ a → chipByte u.env b = chipByte s.env b

/-- 20_memory.md R38: an integer from 0 to 255 passes through unchanged, a name gives its table entry, anything else is
a fault; the fault for an unknown name is the model's (log entry 12). Each of the five access primitives on a reference
that does not resolve only reports the fault; that the host then goes on with its plan and that nothing but what it
reported changes is the model's choice (log entry 5). -/
def Obligations.AddressesResolveOrAreReported : Prop :=
  (∀ (names : NameTable) (n : Nat), n ≤ 255 → resolveAddress names (.int n) = .ok (BitVec.ofNat 8 n)) ∧
  (∀ (names : NameTable) (n : Int), n < 0 ∨ 255 < n → resolveAddress names (.int n) = .error .invalidAddress) ∧
  (∀ (names : NameTable) (x : String) (a : Byte), (names.map Prod.fst).Nodup → (x, a) ∈ names →
    resolveAddress names (.name x) = .ok a) ∧
  (∀ (names : NameTable) (x : String), x ∉ names.map Prod.fst → ∃ f, resolveAddress names (.name x) = .error f) ∧
  (∀ names : NameTable, resolveAddress names .other = .error .invalidAddressType) ∧
  ∀ (s : State) (ref : HostRef) (f : HostFault) (act : HostAction) (v : Byte) (n : Nat) (data : List Byte)
    (rest : List HostAction), resolveAddress s.env.names ref = .error f →
    act ∈ [.readByte ref, .writeByte ref v, .strobe ref, .readBurst ref n, .writeBurst ref data] →
    s.env.agenda = act :: rest →
    step s = .next { s with env := { s.env with agenda := rest, reported := some f } }

/-- The frames of the burst and strobe primitives (20_memory.md R35, R36, R37) at every address in a class: the strobe's
address goes out with no header, a burst read's command bytes advance the address by 8, a burst write is one exchange.
That each command byte of a burst read is shown as a frame of its own, with nothing after it, and that as many bytes
come back, is the model's choice (log entry 11; the rest of the frame is open, parameter P9). That each of the three completes
at every address in a class is the model's too (log entries 8, 10, 19 and 24). -/
def Obligations.BusFrames : Prop :=
  (∀ (s : State) (a : Byte) (rest : List HostAction), inClass a → s.env.agenda = .strobe (.int a.toNat) :: rest →
    ∃ t, step s = .next t ∧ t.env.sent = [[a, 0x00]] ∧ t.env.received.length = 2 ∧ t.env.agenda = rest) ∧
  (∀ (s : State) (a : Byte) (n : Nat) (rest : List HostAction), a.toNat + 8 * n ≤ 0x107 → inClass a →
    s.env.agenda = .readBurst (.int a.toNat) n :: rest →
    ∃ t, step s = .next t ∧ t.env.received.length = n ∧ t.env.agenda = rest ∧
      t.env.sent = (List.range n).map fun k => [0xC0 ||| BitVec.ofNat 8 (a.toNat + 8 * k)]) ∧
  (∀ (s : State) (a : Byte) (data : List Byte) (rest : List HostAction), inClass a →
    s.env.agenda = .writeBurst (.int a.toNat) data :: rest →
    ∃ t, step s = .next t ∧ t.env.sent = [(0x40 ||| a) :: data] ∧ t.env.received = [] ∧ t.env.agenda = rest)

/-- RDF (42_register_forms.md R94) at every address in a class: it reads the byte, presents XFR on it, and a fault is
reported to the caller (60_exceptions.md R108; the step that reports it is the model's, log entry 21). The byte is what
a configuration register holds (log entry 6), and for a status register what the chip returns (the model's input, log
entry 7); no register changes, but at a strobe address the model leaves that open (log entries 22 and 23). That every
address in a class is read is log entry 8, and that the host goes on with its plan after a fault is log entry 5. -/
def Obligations.ReadFieldMacro : Prop :=
  ∀ (s : State) (rk fk : Byte) (rest : List HostAction), inClass rk → s.env.agenda = .rdf rk fk :: rest →
    ∃ d t u v x, step s = .next t ∧ step t = .next u ∧ step u = .next v ∧
      t.env.sent = [[0x80 ||| rk, 0x00]] ∧ t.env.received = [d] ∧
      exec (.xfr rk fk d) s = .next x ∧ u.rsp = x.rsp ∧ v.rsp = x.rsp ∧ v.env.agenda = rest ∧
      (x.rsp.status = 0x00 → v.env.reported = s.env.reported) ∧
      (x.rsp.status ≠ 0x00 → v.env.reported = some (.blockFault x.rsp.status)) ∧
      (¬ isStrobe rk → v.env.chip = s.env.chip) ∧
      (rk.toNat ≤ 0x2E → d = chipByte s.env rk) ∧
      (0xF0 ≤ rk.toNat → ∀ b more, s.env.incoming = b :: more → d = b)

/-- WRF on a configuration register (42_register_forms.md R95, which the spec marks as derived), with a number or with a
bit-string: after its three steps the field holds the value, every other field of the register's layout and every other
register hold what they held. That the register holds what was written and no register changes by itself between the
steps is the model's reading, which R124 leaves open (log entry 6), and that the read has no side effect is its choice
(log entry 22). -/
def Obligations.WriteFieldMacroDisturbsNothingElse : Prop :=
  ∀ (s : State) (rk fk v : Byte) (vlen : Nibble) (fd : FieldDesc) (rest : List HostAction), s.schema.wf = true →
    rk.toNat ≤ 0x2E → Holds s.schema rk fk fd →
    (s.env.agenda = .wrf rk fk v :: rest ∧ v.toNat < 2 ^ fd.width ∨
      s.env.agenda = .wrfb rk fk vlen v :: rest ∧ 1 ≤ vlen.toNat ∧ vlen.toNat ≤ fd.width ∧
        v.toNat < 2 ^ vlen.toNat) →
    ∃ t, core.run 3 s = .next t ∧ t.env.agenda = rest ∧ t.rsp.status = 0x00 ∧
      exec (.xfr rk fk (chipByte t.env rk)) s = .next (withOk s v) ∧
      (∀ gk : Byte, gk ≠ fk →
        exec (.xfr rk gk (chipByte t.env rk)) s = exec (.xfr rk gk (chipByte s.env rk)) s) ∧
      ∀ b : Byte, b ≠ rk → chipByte t.env b = chipByte s.env b

/-- WRF when the block faults (42_register_forms.md R95, which the spec marks as derived), with a number or with any
bit-string operand, at every address in a class: its three steps complete, the only frame is the read's, and the fault
is reported to the caller. That the host then goes on with its plan is the model's choice (log entry 5), as are what a
read does to the chip's registers (log entries 22 and 23) and that reads and writes complete at every address in a class
(log entries 8 and 24). -/
def Obligations.WriteFieldMacroWritesNothingOnAFault : Prop :=
  ∀ (s : State) (rk fk v : Byte) (vlen : Nibble) (rest : List HostAction), inClass rk →
    (s.env.agenda = .wrf rk fk v :: rest ∨ s.env.agenda = .wrfb rk fk vlen v :: rest) →
    ∃ t, core.run 3 s = .next t ∧ t.env.agenda = rest ∧
      (t.rsp.status ≠ 0x00 → t.env.sent = [[0x80 ||| rk, 0x00]] ∧
        t.env.reported = some (.blockFault t.rsp.status) ∧ (¬ isStrobe rk → t.env.chip = s.env.chip))

/-- The bounded polling loop (42_register_forms.md R96; the bound is parameter P10, the order of its checks and its steps
are the model's choice, log entry 15): at every address in a class but a strobe it ends within five steps a turn and one
more, whatever the chip returns, and either the last answer is the wanted one or a fault has been reported. That reading
changes no register is the model's choice (log entry 22), and so is that the host goes on with its plan after a fault
(log entry 5). When Timeout comes, and a strobe address, are in PollingTimesOutOnlyAfterEveryTurn. -/
def Obligations.PollingIsBounded : Prop :=
  ∀ (s : State) (rk fk want : Byte) (bound : Nat) (rest : List HostAction),
    inClass rk → ¬ isStrobe rk → s.env.agenda = .poll rk fk want bound :: rest →
    ∃ k ≤ 5 * bound + 1, ∃ t, core.run k s = .next t ∧ t.env.agenda = rest ∧
      t.schema = s.schema ∧ t.env.chip = s.env.chip ∧
      ((t.rsp.status = 0x00 ∧ t.rsp.result = want ∧ t.env.reported = s.env.reported) ∨
        t.env.reported = some .timeout ∨
        (t.rsp.status ≠ 0x00 ∧ t.env.reported = some (.blockFault t.rsp.status)))

/-- The command byte (20_memory.md R32, 30_encoding.md R63): for an address below 0x40 its CLASS and ADDR fields are the
class and the address, so it is what two inserts compose; for a status register both header bits are already set. -/
def Obligations.CommandByteIsHeaderOrAddress : Prop :=
  (∀ (c : BusClass) (a : Byte) (s : State), a.toNat < 0x40 →
    exec (.ext ⟨0, 2⟩ (commandByte c a)) s = .next (withOk s c.number) ∧
    exec (.ext ⟨2, 6⟩ (commandByte c a)) s = .next (withOk s a) ∧
    exec (.ins ⟨2, 6⟩ c.header a) s = .next (withOk s (commandByte c a))) ∧
  ∀ (c : BusClass) (a : Byte), 0xF0 ≤ a.toNat → a.toNat ≤ 0xFD → commandByte c a = a

/-- The byte primitives at every address in a class (20_memory.md R33, R34): both complete, with the frame and the
answer the rules give, and leave the block alone. Which registers change is the model's reading: a read changes none,
but at a strobe address that is open (log entries 22 and 23); a write changes the register written (log entry 6) and
none at a status register, PATABLE or the FIFO (log entries 9 and 24). That every address in a class is accessible is log entry 8. -/
def Obligations.ByteAccessesCompleteInEveryClass : Prop :=
  ∀ (s : State) (a v : Byte) (rest : List HostAction), inClass a →
    (s.env.agenda = .readByte (.int a.toNat) :: rest →
      ∃ t d, step s = .next t ∧ t.env.sent = [[0x80 ||| a, 0x00]] ∧ t.env.received = [d] ∧
        t.rsp = s.rsp ∧ t.env.agenda = rest ∧ (¬ isStrobe a → t.env.chip = s.env.chip)) ∧
    (s.env.agenda = .writeByte (.int a.toNat) v :: rest →
      ∃ t, step s = .next t ∧ t.env.sent = [[0x00 ||| a, v]] ∧ t.env.received = [] ∧
        t.rsp = s.rsp ∧ t.env.agenda = rest ∧
        (¬ isStrobe a → ∀ b : Byte, chipByte t.env b = if b = a ∧ a.toNat ≤ 0x2E then v else chipByte s.env b))

/-- An access at an address in no class is refused, "no access to them is given a meaning" (93_implementation_defined.md
U23): the five primitives and the macros stop there. That at every other address each of them completes is the model's:
log entry 8 for all, 11 for a burst read that steps into no class, 10 for a burst write past 0x2E, 23 for a read at a
strobe address, 19 and 24 for a strobe or write outside the strobe class and at a status address, 5, 15 and 26 for the
parts of the macros and of the polling loop, which go on also with no response since reset. -/
def Obligations.AccessesInNoClassAreRefused : Prop :=
  ∀ (s : State) (a v fk want : Byte) (vlen : Nibble) (n : Nat) (data : List Byte) (act : HostAction)
    (rest : List HostAction), s.env.agenda = act :: rest →
    (¬ inClass a →
      (act ∈ [.readByte (.int a.toNat), .readBurst (.int a.toNat) n, .rdf a fk, .wrf a fk v, .wrfb a fk vlen v] →
        step s = .refused (.chipReadNotGiven a)) ∧
      (act ∈ [.writeByte (.int a.toNat) v, .strobe (.int a.toNat), .writeBurst (.int a.toNat) data] →
        step s = .refused (.chipWriteNotGiven a))) ∧
    (inClass a → act ∈ [.readByte (.int a.toNat), .readBurst (.int a.toNat) n, .rdf a fk, .wrf a fk v,
        .wrfb a fk vlen v, .writeByte (.int a.toNat) v, .strobe (.int a.toNat), .writeBurst (.int a.toNat) data,
        .writeBack a, .poll a fk want n, .pollCheck a fk want n] →
      ∃ t, step s = .next t)

/-- WRF, step by step, at every address in a class (42_register_forms.md R95, which the spec marks as derived): the byte
is read, IFR (for a bit-string IFRB) is presented on it, and an OK result is written back, also where the chip's register
is read-only (R91), while a fault is reported and nothing more is sent. That the host goes on with its plan after a fault
is the model's choice (log entry 5), and so is that reads and writes complete at every address in a class, strobe and
status addresses among them (log entries 8, 23 and 24). -/
def Obligations.WriteFieldMacroSteps : Prop :=
  ∀ (s : State) (rk fk v : Byte) (str : BitString) (rest : List HostAction) (i : Byte → Instr), inClass rk →
    str.wellFormed = true →
    ((s.env.agenda = .wrf rk fk v :: rest ∧ i = fun d => .ifr rk fk d v) ∨
      (s.env.agenda = .wrfb rk fk (BitVec.ofNat 4 str.len) str.bits :: rest ∧ i = fun d => .ifrb rk fk d str)) →
    ∃ d t u r x, step s = .next t ∧ step t = .next u ∧ step u = .next r ∧
      t.env.sent = [[0x80 ||| rk, 0x00]] ∧ t.env.received = [d] ∧
      exec (i d) s = .next x ∧ u.rsp = x.rsp ∧ r.rsp = x.rsp ∧ r.env.agenda = rest ∧
      (x.rsp.status = 0x00 → r.env.sent = [[0x00 ||| rk, x.rsp.result]] ∧ r.env.received = [] ∧
        r.env.reported = s.env.reported) ∧
      (x.rsp.status ≠ 0x00 → r.env.sent = [[0x80 ||| rk, 0x00]] ∧
        r.env.reported = some (.blockFault x.rsp.status))

/-- The polling loop at every address in a class, a strobe among them (42_register_forms.md R96): it leaves with the
wanted value only after a turn, and Timeout comes only when all `bound` turns have been taken, each answered OK with
another value. The bound is parameter P10; the order of the checks and the steps of a turn are the model's choice (log
entry 15), as are that the read completes at every such address (log entries 8 and 23) and that the host goes on with
its plan after a fault (log entry 5). -/
def Obligations.PollingTimesOutOnlyAfterEveryTurn : Prop :=
  ∀ (s : State) (rk fk want : Byte) (bound : Nat) (rest : List HostAction),
    inClass rk → s.env.agenda = .poll rk fk want bound :: rest →
    ∃ k ≤ 5 * bound + 1, ∃ t, core.run k s = .next t ∧ t.env.agenda = rest ∧ t.schema = s.schema ∧
      ((0 < bound ∧ t.rsp.status = 0x00 ∧ t.rsp.result = want ∧ t.env.reported = s.env.reported) ∨
        (k = 5 * bound + 1 ∧ t.env.reported = some .timeout ∧
          ∀ j < bound, ∃ u, core.run (5 * j + 4) s = .next u ∧ u.rsp.status = 0x00 ∧ u.rsp.result ≠ want) ∨
        (0 < bound ∧ t.rsp.status ≠ 0x00 ∧ t.env.reported = some (.blockFault t.rsp.status)))
end

