-- ==== Sys2Proof/Laws/Operands.lean ====
section
/-! SUPPORT. Laws of descriptors and of the schema's well-formedness. -/

namespace Sys2Proof

theorem FieldDesc.valid_iff (fd : FieldDesc) :
    fd.valid = true ↔ fd.index ≤ 7 ∧ 1 ≤ fd.width ∧ fd.width ≤ 8 ∧ fd.index + fd.width ≤ 8 := by
  simp [FieldDesc.valid, and_assoc]

/-- The 36 valid descriptors as a case split (10_state.md R11): provers can run a closed check on each. -/
theorem FieldDesc.valid_bounds {fd : FieldDesc} (h : fd.valid = true) :
    fd.index < 8 ∧ fd.width < 9 ∧ 0 < fd.width ∧ fd.shift + fd.width + fd.index = 8 := by
  have := (FieldDesc.valid_iff fd).1 h
  simp only [FieldDesc.shift]
  omega

theorem FieldDesc.mask_lt (fd : FieldDesc) : fd.mask < 2 ^ fd.width := by
  have := Nat.two_pow_pos fd.width
  simp only [FieldDesc.mask, Nat.one_shiftLeft]
  omega

theorem FieldDesc.overlaps_eq_false_iff (f g : FieldDesc) : f.overlaps g = false ↔ f.pmask &&& g.pmask = 0 := by
  simp [FieldDesc.overlaps]

theorem RegisterLayout.wf_iff (l : RegisterLayout) :
    RegisterLayout.wf l = true ↔
      (l.map FieldEntry.key).Nodup ∧ (∀ f ∈ l, f.desc.valid = true) ∧
      (l.Pairwise fun f g => f.desc.overlaps g.desc = false) ∧ (l.map fun f => f.desc.width).sum ≤ 8 := by
  simp [RegisterLayout.wf, RegisterLayout.fieldKeysDistinct, RegisterLayout.descriptorsValid,
    RegisterLayout.noOverlap, RegisterLayout.widthsFit, and_assoc]

theorem Schema.wf_iff (sch : Schema) :
    sch.wf = true ↔ (sch.map RegisterEntry.key).Nodup ∧ ∀ e ∈ sch, RegisterLayout.wf e.layout = true := by
  simp [Schema.wf, Schema.registerKeysDistinct]

end Sys2Proof
end

