-- ==== Sys2Proof/Laws/State.lean ====
section
/-! SUPPORT. One lemma per field and update of State, and the response operations' effect on each field. -/

namespace Sys2Proof.Machine

@[simp] theorem State.withRsp_rsp (s : State) (r : Rsp) : (s.withRsp r).rsp = r := rfl
@[simp] theorem State.withRsp_schema (s : State) (r : Rsp) : (s.withRsp r).schema = s.schema := rfl
@[simp] theorem State.withRsp_env (s : State) (r : Rsp) : (s.withRsp r).env = s.env := rfl
@[simp] theorem State.withRsp_withRsp (s : State) (r q : Rsp) : (s.withRsp r).withRsp q = s.withRsp q := rfl
@[simp] theorem State.withRsp_self (s : State) : s.withRsp s.rsp = s := rfl

@[simp] theorem State.withEnv_rsp (s : State) (e : Environment) : (s.withEnv e).rsp = s.rsp := rfl
@[simp] theorem State.withEnv_schema (s : State) (e : Environment) : (s.withEnv e).schema = s.schema := rfl
@[simp] theorem State.withEnv_env (s : State) (e : Environment) : (s.withEnv e).env = e := rfl

@[simp] theorem State.withAgenda_rsp (s : State) (l : List HostAction) : (s.withAgenda l).rsp = s.rsp := rfl
@[simp] theorem State.withAgenda_schema (s : State) (l : List HostAction) : (s.withAgenda l).schema = s.schema := rfl
@[simp] theorem State.withAgenda_agenda (s : State) (l : List HostAction) : (s.withAgenda l).env.agenda = l := rfl
@[simp] theorem State.withAgenda_names (s : State) (l : List HostAction) : (s.withAgenda l).env.names = s.env.names := rfl
@[simp] theorem State.withAgenda_chip (s : State) (l : List HostAction) : (s.withAgenda l).env.chip = s.env.chip := rfl
@[simp] theorem State.withAgenda_chipActions (s : State) (l : List HostAction) :
    (s.withAgenda l).env.chipActions = s.env.chipActions := rfl
@[simp] theorem State.withAgenda_incoming (s : State) (l : List HostAction) :
    (s.withAgenda l).env.incoming = s.env.incoming := rfl
@[simp] theorem State.withAgenda_draws (s : State) (l : List HostAction) : (s.withAgenda l).env.draws = s.env.draws := rfl
@[simp] theorem State.withAgenda_sent (s : State) (l : List HostAction) : (s.withAgenda l).env.sent = s.env.sent := rfl
@[simp] theorem State.withAgenda_received (s : State) (l : List HostAction) :
    (s.withAgenda l).env.received = s.env.received := rfl
@[simp] theorem State.withAgenda_reported (s : State) (l : List HostAction) :
    (s.withAgenda l).env.reported = s.env.reported := rfl

@[simp] theorem Rsp.ok_valid (r : Byte) : (Rsp.ok r).valid = true := rfl
@[simp] theorem Rsp.ok_status (r : Byte) : (Rsp.ok r).status = statusOk := rfl
@[simp] theorem Rsp.ok_result (r : Byte) : (Rsp.ok r).result = r := rfl
@[simp] theorem Rsp.ofFault_valid (f : BlockFault) : (Rsp.ofFault f).valid = true := rfl
@[simp] theorem Rsp.ofFault_status (f : BlockFault) : (Rsp.ofFault f).status = f.code := rfl
@[simp] theorem Rsp.ofFault_result (f : BlockFault) : (Rsp.ofFault f).result = 0x00 := rfl

theorem BlockFault.code_ne_ok (f : BlockFault) : f.code ≠ statusOk := by
  cases f <;> decide

theorem BlockFault.code_injective (f g : BlockFault) (h : f.code = g.code) : f = g := by
  cases f <;> cases g <;> first | rfl | exact absurd h (by decide)

@[simp] theorem respond_rsp (s : State) (r : Byte) : (respond s r).rsp = Rsp.ok r := rfl
@[simp] theorem respond_schema (s : State) (r : Byte) : (respond s r).schema = s.schema := rfl
@[simp] theorem respond_env (s : State) (r : Byte) : (respond s r).env = s.env := rfl
@[simp] theorem raise_rsp (s : State) (f : BlockFault) : (raise s f).rsp = Rsp.ofFault f := rfl
@[simp] theorem raise_schema (s : State) (f : BlockFault) : (raise s f).schema = s.schema := rfl
@[simp] theorem raise_env (s : State) (f : BlockFault) : (raise s f).env = s.env := rfl
@[simp] theorem answer_ok (s : State) (r : Byte) : answer s (.ok r) = respond s r := rfl
@[simp] theorem answer_error (s : State) (f : BlockFault) : answer s (.error f) = raise s f := rfl
@[simp] theorem resetBlock_rsp (s : State) : (resetBlock s).rsp = Rsp.reset := rfl
@[simp] theorem resetBlock_schema (s : State) : (resetBlock s).schema = s.schema := rfl
@[simp] theorem resetBlock_env (s : State) : (resetBlock s).env = s.env := rfl

/-- What `answer` can do: an OK result, or a fault with its code; the rest of the state is as it was. -/
theorem answer_cases (s : State) (x : Except BlockFault Byte) :
    (∃ r, x = .ok r ∧ answer s x = s.withRsp (Rsp.ok r)) ∨
    (∃ f, x = .error f ∧ answer s x = s.withRsp (Rsp.ofFault f)) := by
  cases x with
  | ok r => exact .inl ⟨r, rfl, rfl⟩
  | error f => exact .inr ⟨f, rfl, rfl⟩

end Sys2Proof.Machine
end

