-- ==== Sys2Proof/Laws/Ops.lean ====
section
/-! SUPPORT. What each shared operation can do: the datapaths bit by bit, the lookups, the chip's memory. -/

namespace Sys2Proof.Machine

/-! ## The checks in front of the datapaths -/

theorem extractField_cases (data : Byte) (fd : FieldDesc) :
    (fd.valid = true ∧ extractField data fd = .ok (extractBits data fd)) ∨
    (fd.valid = false ∧ extractField data fd = .error .invalidFieldSpec) := by
  cases h : fd.valid <;> simp [extractField, h]

theorem insertNumeric_cases (data : Byte) (fd : FieldDesc) (val : Byte) :
    (val.toNat ≤ fd.mask ∧ insertNumeric data fd val = .ok (insertBits data fd val)) ∨
    (fd.mask < val.toNat ∧ insertNumeric data fd val = .error .valueOutOfRange) := by
  by_cases h : fd.mask < val.toNat
  · exact .inr ⟨h, by simp [insertNumeric, h]⟩
  · exact .inl ⟨by omega, by simp [insertNumeric, h]⟩

theorem insertString_cases (data : Byte) (fd : FieldDesc) (str : BitString) :
    (str.len ≤ fd.width ∧ insertString data fd str = .ok (insertBits data fd str.bits)) ∨
    (fd.width < str.len ∧ insertString data fd str = .error .valueOutOfRange) := by
  by_cases h : fd.width < str.len
  · exact .inr ⟨h, by simp [insertString, h]⟩
  · exact .inl ⟨by omega, by simp [insertString, h]⟩

/-! ## The lookups -/

/-- What `layoutFor` can do, in any schema. -/
theorem layoutFor_cases (sch : Schema) (rk : Byte) :
    (∃ e ∈ sch, e.key = rk ∧ layoutFor sch rk = .ok e.layout) ∨
    ((∀ e ∈ sch, e.key ≠ rk) ∧ layoutFor sch rk = .error .unknownRegister) := by
  cases h : sch.find? (fun e => e.key == rk) with
  | some e =>
    refine .inl ⟨e, List.mem_of_find?_eq_some h, ?_, by simp [layoutFor, h]⟩
    simpa using List.find?_some h
  | none =>
    refine .inr ⟨fun e he => ?_, by simp [layoutFor, h]⟩
    simpa using List.find?_eq_none.1 h e he

/-- A search by key in a list whose keys are distinct finds the one entry with that key. -/
theorem find?_key_of_nodup {α : Type} (key : α → Byte) :
    ∀ (l : List α), (l.map key).Nodup → ∀ e ∈ l, l.find? (fun x => key x == key e) = some e
  | [], _, e, he => by cases he
  | x :: l, hn, e, he => by
    simp only [List.map_cons, List.nodup_cons] at hn
    rcases List.mem_cons.1 he with rfl | he
    · simp
    · have hne : ¬ key x = key e := fun h => hn.1 (h ▸ List.mem_map_of_mem he)
      simp [hne, find?_key_of_nodup key l hn.2 e he]

theorem layoutFor_of_mem {sch : Schema} (hwf : sch.wf = true) {e : RegisterEntry} (he : e ∈ sch) :
    layoutFor sch e.key = .ok e.layout := by
  have := find?_key_of_nodup RegisterEntry.key sch ((Schema.wf_iff sch).1 hwf).1 e he
  simp [layoutFor, this]

theorem layoutFor_of_absent {sch : Schema} {rk : Byte} (h : ∀ e ∈ sch, e.key ≠ rk) :
    layoutFor sch rk = .error .unknownRegister := by
  rcases layoutFor_cases sch rk with ⟨e, he, hk, -⟩ | ⟨-, hr⟩
  · exact absurd hk (h e he)
  · exact hr

/-- What `fieldIn` can do, in any schema. -/
theorem fieldIn_cases (sch : Schema) (rk fk : Byte) :
    (∃ e ∈ sch, e.key = rk ∧ ∃ f ∈ e.layout, f.key = fk ∧ fieldIn sch rk fk = .ok f.desc) ∨
    (∃ e ∈ sch, e.key = rk ∧ layoutFor sch rk = .ok e.layout ∧ (∀ f ∈ e.layout, f.key ≠ fk) ∧
      fieldIn sch rk fk = .error .unknownField) ∨
    ((∀ e ∈ sch, e.key ≠ rk) ∧ fieldIn sch rk fk = .error .unknownRegister) := by
  rcases layoutFor_cases sch rk with ⟨e, he, hk, hl⟩ | ⟨hno, hl⟩
  · cases h : e.layout.find? (fun f => f.key == fk) with
    | some f =>
      exact .inl ⟨e, he, hk, f, List.mem_of_find?_eq_some h, by simpa using List.find?_some h,
        by simp [fieldIn, hl, h]⟩
    | none =>
      refine .inr (.inl ⟨e, he, hk, hl, fun f hf => ?_, by simp [fieldIn, hl, h]⟩)
      simpa using List.find?_eq_none.1 h f hf
  · exact .inr (.inr ⟨hno, by simp [fieldIn, hl]⟩)

theorem fieldIn_of_mem {sch : Schema} (hwf : sch.wf = true) {e : RegisterEntry} (he : e ∈ sch) {f : FieldEntry}
    (hf : f ∈ e.layout) : fieldIn sch e.key f.key = .ok f.desc := by
  have hl := (RegisterLayout.wf_iff e.layout).1 (((Schema.wf_iff sch).1 hwf).2 e he)
  have := find?_key_of_nodup FieldEntry.key e.layout hl.1 f hf
  simp [fieldIn, layoutFor_of_mem hwf he, this]

theorem fieldIn_of_noField {sch : Schema} (hwf : sch.wf = true) {e : RegisterEntry} (he : e ∈ sch) {fk : Byte}
    (hf : ∀ f ∈ e.layout, f.key ≠ fk) : fieldIn sch e.key fk = .error .unknownField := by
  have : e.layout.find? (fun f => f.key == fk) = none := by
    simpa [List.find?_eq_none] using hf
  simp [fieldIn, layoutFor_of_mem hwf he, this]

theorem fieldIn_of_absent {sch : Schema} {rk fk : Byte} (h : ∀ e ∈ sch, e.key ≠ rk) :
    fieldIn sch rk fk = .error .unknownRegister := by
  simp [fieldIn, layoutFor_of_absent h]

/-! ## The chip's memory -/

@[simp] theorem Memory.read?_nil (a : Nat) : Memory.read? [] a = none := rfl

theorem Memory.read?_cons (c : Host.Cell) (m : Memory) (a : Nat) :
    Memory.read? (c :: m) a = if c.1 = a then some c.2 else Memory.read? m a := by
  by_cases h : c.1 = a <;> simp [Memory.read?, h]

@[simp] theorem Memory.read?_write_same (m : Memory) (a : Nat) (v : Byte) :
    Memory.read? (Memory.write m a v) a = some v := by
  induction m with
  | nil => simp [Memory.write, Memory.read?_cons]
  | cons c m ih =>
    by_cases h : a < c.1
    · simp [Memory.write, h, Memory.read?_cons]
    · by_cases h' : a = c.1
      · subst h'
        simp [Memory.write, Memory.read?_cons]
      · have h'' : ¬ c.1 = a := fun e => h' e.symm
        simp [Memory.write, h, h', h'', Memory.read?_cons, ih]

theorem Memory.read?_write_other (m : Memory) {a b : Nat} (v : Byte) (hb : b ≠ a) :
    Memory.read? (Memory.write m a v) b = Memory.read? m b := by
  have hb' : ¬ a = b := fun e => hb e.symm
  induction m with
  | nil => simp [Memory.write, Memory.read?_cons, hb']
  | cons c m ih =>
    by_cases h : a < c.1
    · simp [Memory.write, h, Memory.read?_cons, hb']
    · by_cases h' : a = c.1
      · subst h'
        simp [Memory.write, Memory.read?_cons, hb']
      · simp [Memory.write, h, h', Memory.read?_cons, ih]

theorem Memory.wf_iff (m : Memory) :
    m.wf = true ↔ (m.Pairwise fun c d => c.1 < d.1) ∧ ∀ c ∈ m, c.1 ≤ 0x2E := by
  simp [Memory.wf]

theorem Memory.wf_nil : Memory.wf [] = true := by decide

/-- A cell of a memory after a write is the written one or was there before. -/
theorem Memory.mem_write {m : Memory} {a : Nat} {v : Byte} {c : Host.Cell} (h : c ∈ Memory.write m a v) :
    c = (a, v) ∨ c ∈ m := by
  induction m with
  | nil => simpa [Memory.write] using h
  | cons d m ih =>
    simp only [Memory.write] at h
    split at h
    · simpa using h
    · split at h
      · rcases List.mem_cons.1 h with h | h
        · exact .inl h
        · exact .inr (List.mem_cons_of_mem _ h)
      · rcases List.mem_cons.1 h with rfl | h
        · exact .inr (by simp)
        · exact (ih h).imp_right (List.mem_cons_of_mem _)

/-- Writing a configuration register keeps the canonical form. -/
theorem Memory.write_wf {m : Memory} {a : Nat} (v : Byte) (hm : m.wf = true) (ha : a ≤ 0x2E) :
    (Memory.write m a v).wf = true := by
  rw [Memory.wf_iff] at hm ⊢
  refine ⟨?_, fun c hc => ?_⟩
  · have hp := hm.1
    clear hm
    induction m with
    | nil => simp [Memory.write]
    | cons d m ih =>
      have hd := List.pairwise_cons.1 hp
      simp only [Memory.write]
      split
      · rename_i h
        refine List.pairwise_cons.2 ⟨fun c hc => ?_, hp⟩
        rcases List.mem_cons.1 hc with rfl | hc
        · exact h
        · exact Nat.lt_trans h (hd.1 c hc)
      · split
        · rename_i h
          exact List.pairwise_cons.2 ⟨fun c hc => h ▸ hd.1 c hc, hd.2⟩
        · rename_i h h'
          refine List.pairwise_cons.2 ⟨fun c hc => ?_, ih hd.2⟩
          rcases Memory.mem_write hc with rfl | hc
          · show d.1 < a
            omega
          · exact hd.1 c hc
  · rcases Memory.mem_write hc with rfl | hc
    · exact ha
    · exact hm.2 c hc

/-! ## Construction -/

theorem State.construct_cases (sch : Schema) :
    (sch.wf = true ∧ State.construct sch = some { State.reset with schema := sch }) ∨
    (sch.wf = false ∧ State.construct sch = none) := by
  cases h : sch.wf <;> simp [State.construct, h]

end Sys2Proof.Machine
end

