-- ==== Sys2Proof/Laws/Chip.lean ====
section
/-! SUPPORT. What the environment's operations leave unchanged, and that every one of them keeps the chip's memory in canonical form. -/

namespace Sys2Proof.Machine

theorem addressClass_configuration_iff (a : Byte) : addressClass a = .configuration ↔ a.toNat ≤ 0x2E := by
  unfold addressClass
  split
  · simpa using ‹_›
  · rename_i h
    simp only [h, iff_false]
    repeat' split
    all_goals simp

theorem addressClass_strobe_iff (a : Byte) : addressClass a = .strobe ↔ 0x30 ≤ a.toNat ∧ a.toNat ≤ 0x3D := by
  unfold addressClass
  repeat' split
  all_goals simp
  all_goals omega

/-- The addresses in no class (20_memory.md R31, 93_implementation_defined.md U23). -/
theorem addressClass_unmentioned_iff (a : Byte) : addressClass a = .unmentioned ↔
    ¬ (a.toNat ≤ 0x2E ∨ 0x30 ≤ a.toNat ∧ a.toNat ≤ 0x3F ∨ 0xF0 ≤ a.toNat ∧ a.toNat ≤ 0xFD) := by
  unfold addressClass
  repeat' split
  all_goals simp
  all_goals omega

@[simp] theorem drawByte_chip (e : Environment) : (drawByte e).2.chip = e.chip := by
  unfold drawByte
  split <;> rfl

@[simp] theorem drawByte_agenda (e : Environment) : (drawByte e).2.agenda = e.agenda := by
  unfold drawByte
  split <;> rfl

@[simp] theorem drawByte_reported (e : Environment) : (drawByte e).2.reported = e.reported := by
  unfold drawByte
  split <;> rfl

@[simp] theorem drawBytes_chip (n : Nat) : ∀ e : Environment, (drawBytes n e).2.chip = e.chip := by
  induction n with
  | zero => intro e; rfl
  | succ n ih => intro e; simp [drawBytes, ih]

@[simp] theorem drawBytes_agenda (n : Nat) : ∀ e : Environment, (drawBytes n e).2.agenda = e.agenda := by
  induction n with
  | zero => intro e; rfl
  | succ n ih => intro e; simp [drawBytes, ih]

@[simp] theorem drawBytes_reported (n : Nat) : ∀ e : Environment, (drawBytes n e).2.reported = e.reported := by
  induction n with
  | zero => intro e; rfl
  | succ n ih => intro e; simp [drawBytes, ih]

@[simp] theorem drawBytes_length (n : Nat) : ∀ e : Environment, (drawBytes n e).1.length = n := by
  induction n with
  | zero => intro e; rfl
  | succ n ih => intro e; simp [drawBytes, ih]

@[simp] theorem chipAction_chip (e : Environment) : (chipAction e).chip = [] := rfl
@[simp] theorem chipAction_agenda (e : Environment) : (chipAction e).agenda = e.agenda := rfl
@[simp] theorem chipAction_reported (e : Environment) : (chipAction e).reported = e.reported := rfl

/-- What a read can do: a configuration register gives what it holds and nothing changes; a status register, PATABLE or
the FIFO gives a drawn byte; a strobe address gives a drawn byte and the chip may act; in no class there is no read. -/
theorem chipRead_cases (e : Environment) (a : Byte) :
    (a.toNat ≤ 0x2E ∧ chipRead e a = some (chipByte e a, e)) ∨
    ((addressClass a = .status ∨ addressClass a = .patable ∨ addressClass a = .fifo) ∧
      chipRead e a = some (drawByte e)) ∨
    (addressClass a = .strobe ∧ chipRead e a = some (drawByte (chipAction e))) ∨
    (addressClass a = .unmentioned ∧ chipRead e a = none) := by
  have hconf := addressClass_configuration_iff a
  cases h : addressClass a <;> simp_all [chipRead]

/-- A read changes neither the host's plan nor what it reported, and no byte of the chip's memory but where the chip
may act, at a strobe address. -/
theorem chipRead_frame {e e' : Environment} {a v : Byte} (h : chipRead e a = some (v, e')) :
    (e'.chip = e.chip ∨ addressClass a = .strobe ∧ e'.chip = []) ∧ e'.agenda = e.agenda ∧
      e'.reported = e.reported := by
  rcases chipRead_cases e a with ⟨-, hr⟩ | ⟨-, hr⟩ | ⟨ha, hr⟩ | ⟨-, hr⟩ <;> rw [hr] at h
  · cases h
    exact ⟨.inl rfl, rfl, rfl⟩
  · have he : e' = (drawByte e).2 := by rw [Option.some.inj h]
    simp [he]
  · have he : e' = (drawByte (chipAction e)).2 := by rw [Option.some.inj h]
    simp [he, ha]
  · cases h

/-- Every read keeps the chip's memory in canonical form. -/
theorem chipRead_wf {e e' : Environment} {a v : Byte} (he : e.chip.wf = true) (h : chipRead e a = some (v, e')) :
    e'.chip.wf = true := by
  rcases (chipRead_frame h).1 with hc | ⟨-, hc⟩ <;> rw [hc]
  · exact he
  · exact Memory.wf_nil

/-- Exactly the addresses in no class cannot be read. -/
theorem chipRead_isNone_iff (e : Environment) (a : Byte) :
    chipRead e a = none ↔ addressClass a = .unmentioned := by
  unfold chipRead
  split <;> simp_all

/-- Exactly the addresses in no class cannot be written. -/
theorem chipWrite_isNone_iff (e : Environment) (a v : Byte) :
    chipWrite e a v = none ↔ addressClass a = .unmentioned := by
  unfold chipWrite
  split <;> simp_all

/-- Exactly the addresses in no class cannot be written in a burst. -/
theorem chipWriteBurst_isNone_iff (e : Environment) (a : Byte) (data : List Byte) :
    chipWriteBurst e a data = none ↔ addressClass a = .unmentioned := by
  unfold chipWriteBurst
  split <;> try simp_all
  split <;> simp

/-- A read of a configuration register gives what it holds. -/
theorem chipRead_configuration {a : Byte} (h : a.toNat ≤ 0x2E) (e : Environment) :
    chipRead e a = some (chipByte e a, e) := by
  simp [chipRead, (addressClass_configuration_iff a).2 h]

theorem chipWrite_configuration {a : Byte} (h : a.toNat ≤ 0x2E) (e : Environment) (v : Byte) :
    chipWrite e a v = some { e with chip := Memory.write e.chip a.toNat v } := by
  simp [chipWrite, (addressClass_configuration_iff a).2 h]

/-- Every write the chip takes keeps its memory in canonical form. -/
theorem chipWrite_wf {e e' : Environment} {a v : Byte} (he : e.chip.wf = true) (h : chipWrite e a v = some e') :
    e'.chip.wf = true := by
  unfold chipWrite at h
  split at h <;> cases h
  · rename_i hc
    exact Memory.write_wf v he ((addressClass_configuration_iff a).1 hc)
  all_goals first | exact he | exact Memory.wf_nil

/-- A write changes neither the host's plan nor what it reported. -/
theorem chipWrite_frame {e e' : Environment} {a v : Byte} (h : chipWrite e a v = some e') :
    e'.agenda = e.agenda ∧ e'.reported = e.reported := by
  unfold chipWrite at h
  split at h <;> cases h <;> exact ⟨rfl, rfl⟩

theorem writeConsecutive_wf (data : List Byte) : ∀ {m : Memory} {a : Nat}, m.wf = true → a + data.length ≤ 0x2F →
    (writeConsecutive m a data).wf = true := by
  induction data with
  | nil => intro m a hm _; exact hm
  | cons v data ih =>
    intro m a hm ha
    simp only [List.length_cons] at ha
    exact ih (Memory.write_wf v hm (by omega)) (by omega)

theorem chipWriteBurst_wf {e e' : Environment} {a : Byte} {data : List Byte} (he : e.chip.wf = true)
    (h : chipWriteBurst e a data = some e') : e'.chip.wf = true := by
  unfold chipWriteBurst at h
  split at h
  · split at h <;> cases h
    · exact writeConsecutive_wf data he ‹_›
    · exact Memory.wf_nil
  all_goals cases h
  all_goals first | exact he | exact Memory.wf_nil

/-- A burst write changes neither the host's plan nor what it reported. -/
theorem chipWriteBurst_frame {e e' : Environment} {a : Byte} {data : List Byte}
    (h : chipWriteBurst e a data = some e') : e'.agenda = e.agenda ∧ e'.reported = e.reported := by
  unfold chipWriteBurst at h
  split at h <;> try split at h
  all_goals cases h
  all_goals exact ⟨rfl, rfl⟩

/-- The byte held after a write: the byte written at its address, what was held everywhere else. -/
theorem chipByte_write (e : Environment) (a b v : Byte) :
    chipByte { e with chip := Memory.write e.chip a.toNat v } b = if b = a then v else chipByte e b := by
  by_cases h : b = a
  · subst h
    simp [chipByte]
  · have : b.toNat ≠ a.toNat := fun e => h (BitVec.eq_of_toNat_eq e)
    simp [chipByte, Memory.read?_write_other _ v this, h]

theorem ModFormat.ofCode?_code (m : ModFormat) : ModFormat.ofCode? m.code = some m := by
  cases m <;> decide

theorem LengthConfig.ofCode?_code (m : LengthConfig) : LengthConfig.ofCode? m.code = some m := by
  cases m <;> decide

end Sys2Proof.Machine
end

