-- ==== Sys2Proof/Laws/Decode.lean ====
section
/-! SUPPORT. Laws of the request word: packing and unpacking are inverse, and what the decoder's parts can do. -/

namespace Sys2Proof

/-- An appended word as a number. -/
theorem toNat_append_eq {m n : Nat} (x : BitVec m) (y : BitVec n) : (x ++ y).toNat = x.toNat * 2 ^ n + y.toNat := by
  rw [BitVec.toNat_append, ← Nat.shiftLeft_add_eq_or_of_lt y.isLt, Nat.shiftLeft_eq]

/-- The request word as a number: every field at its place (30_encoding.md R50). -/
theorem packRequest_toNat (f : RequestFields) :
    (packRequest f).toNat = f.op.toNat * 2 ^ 36 + f.vlen.toNat * 2 ^ 32 + f.a.toNat * 2 ^ 24 +
      f.b.toNat * 2 ^ 16 + f.data.toNat * 2 ^ 8 + f.val.toNat := by
  obtain ⟨op, vlen, a, b, data, val⟩ := f
  show (op ++ vlen ++ a ++ b ++ data ++ val).toNat = _
  simp only [toNat_append_eq]
  ring

@[simp] theorem unpack_pack (f : RequestFields) : unpackRequest (packRequest f) = f := by
  have h := packRequest_toNat f
  obtain ⟨op, vlen, a, b, data, val⟩ := f
  have h0 := op.isLt
  have h1 := vlen.isLt
  have h2 := a.isLt
  have h3 := b.isLt
  have h4 := data.isLt
  have h5 := val.isLt
  simp only at h
  simp only [unpackRequest, RequestFields.mk.injEq]
  refine ⟨?_, ?_, ?_, ?_, ?_, ?_⟩ <;>
  · apply BitVec.eq_of_toNat_eq
    rw [BitVec.extractLsb'_toNat, h, Nat.shiftRight_eq_div_pow]
    omega

@[simp] theorem pack_unpack (w : Request) : packRequest (unpackRequest w) = w := by
  apply BitVec.eq_of_toNat_eq
  have := w.isLt
  rw [packRequest_toNat]
  simp only [unpackRequest, BitVec.extractLsb'_toNat, Nat.shiftRight_eq_div_pow]
  omega

@[simp] theorem decode_packRequest (f : RequestFields) : decode (packRequest f) = decodeFields f := by
  simp [decode]

theorem unpack_encode (i : Instr) : unpackRequest (encode i) = encodeFields i :=
  unpack_pack (encodeFields i)

/-- The FD byte of a byte's descriptor is the byte (30_encoding.md R51). -/
theorem byteOfFd_fdOfByte (a : Byte) : byteOfFd (fdOfByte a) = a := by
  revert a
  decide

/-- A presentable descriptor is read back from its FD byte (30_encoding.md R51). -/
theorem fdOfByte_byteOfFd {fd : FieldDesc} (h : fd.presentable = true) : fdOfByte (byteOfFd fd) = fd := by
  obtain ⟨i, w⟩ := fd
  simp only [FieldDesc.presentable, Bool.and_eq_true, decide_eq_true_eq] at h
  have key : ∀ i < 16, ∀ w < 16, fdOfByte (byteOfFd ⟨i, w⟩) = ⟨i, w⟩ := by decide
  exact key i h.1 w h.2

/-- Every descriptor read from an FD byte is presentable. -/
theorem fdOfByte_presentable (a : Byte) : (fdOfByte a).presentable = true := by
  revert a
  decide

/-- What the bit-string check can do: the string as presented, well-formed, or a named reason. -/
theorem decodeBitString_cases (vlen : Nibble) (val : Byte) :
    ((BitString.mk vlen.toNat val).wellFormed = true ∧ decodeBitString vlen val = .ok ⟨vlen.toNat, val⟩) ∨
    ((BitString.mk vlen.toNat val).wellFormed = false ∧ ∃ r, decodeBitString vlen val = .error r) := by
  unfold decodeBitString
  split
  · exact .inr ⟨by simp_all [BitString.wellFormed], _, rfl⟩
  · split
    · refine .inr ⟨?_, _, rfl⟩
      have : ¬ vlen.toNat ≤ 8 := by omega
      simp [BitString.wellFormed, this]
    · split
      · exact .inr ⟨by simp_all [BitString.wellFormed], _, rfl⟩
      · refine .inl ⟨?_, rfl⟩
        have h1 : 1 ≤ vlen.toNat := by omega
        have h2 : vlen.toNat ≤ 8 := by omega
        have h3 : val.toNat >>> vlen.toNat = 0 := by omega
        simp [BitString.wellFormed, h1, h2, h3]

/-- A well-formed string's length survives the four-bit field. -/
theorem BitString.len_toNat {str : BitString} (h : str.wellFormed = true) : (BitVec.ofNat 4 str.len).toNat = str.len := by
  simp only [BitString.wellFormed, Bool.and_eq_true, decide_eq_true_eq] at h
  simp only [BitVec.toNat_ofNat]
  omega

end Sys2Proof
end

