-- ==== Sys2Proof/Laws/PerInstr.lean ====
section
/-! SUPPORT. Statements made per instruction: the family EncodeFills, the operation code and the zero fields of every encoding. -/

namespace Sys2Proof.Laws.EncodeFills

/-- The operation code of an instruction (30_encoding.md R53) and the fields that R54 requires to be zero for it. -/
def Fills : Instr → RequestFields → Prop
  | .ext _ _, f       => f.op = 1 ∧ f.vlen = 0 ∧ f.b = 0 ∧ f.val = 0
  | .ins _ _ _, f     => f.op = 2 ∧ f.vlen = 0 ∧ f.b = 0
  | .insb _ _ _, f    => f.op = 3 ∧ f.b = 0
  | .lay _, f         => f.op = 4 ∧ f.vlen = 0 ∧ f.b = 0 ∧ f.data = 0 ∧ f.val = 0
  | .fld _ _, f       => f.op = 5 ∧ f.vlen = 0 ∧ f.data = 0 ∧ f.val = 0
  | .xfr _ _ _, f     => f.op = 6 ∧ f.vlen = 0 ∧ f.val = 0
  | .ifr _ _ _ _, f   => f.op = 7 ∧ f.vlen = 0
  | .ifrb _ _ _ _, f  => f.op = 8

/-- The request word of an instruction carries its operation code and zero in every field it does not use. -/
def Statement (i : Instr) : Prop := Fills i (unpackRequest (encode i))

/-- It is enough to look at the fields before they are packed. -/
theorem of_encodeFields {i : Instr} (h : Fills i (encodeFields i)) : Statement i := by
  rw [Statement, unpack_encode]
  exact h

theorem ext (fd : FieldDesc) (data : Byte) : Statement (.ext fd data) :=
  of_encodeFields ⟨rfl, rfl, rfl, rfl⟩

theorem ins (fd : FieldDesc) (data val : Byte) : Statement (.ins fd data val) :=
  of_encodeFields ⟨rfl, rfl, rfl⟩

theorem insb (fd : FieldDesc) (data : Byte) (str : BitString) : Statement (.insb fd data str) :=
  of_encodeFields ⟨rfl, rfl⟩

theorem lay (rk : Byte) : Statement (.lay rk) :=
  of_encodeFields ⟨rfl, rfl, rfl, rfl, rfl⟩

theorem fld (rk fk : Byte) : Statement (.fld rk fk) :=
  of_encodeFields ⟨rfl, rfl, rfl, rfl⟩

theorem xfr (rk fk data : Byte) : Statement (.xfr rk fk data) :=
  of_encodeFields ⟨rfl, rfl, rfl⟩

theorem ifr (rk fk data val : Byte) : Statement (.ifr rk fk data val) :=
  of_encodeFields ⟨rfl, rfl⟩

theorem ifrb (rk fk data : Byte) (str : BitString) : Statement (.ifrb rk fk data str) :=
  of_encodeFields (i := .ifrb rk fk data str) rfl

end Sys2Proof.Laws.EncodeFills
end

