-- ==== Sys2Proof/Laws/Step.lean ====
section
/-! SUPPORT. What each meaning, each host action and a step can do, said once. -/

namespace Sys2Proof.Machine

/-! ## The meanings -/

theorem execExt_eq (fd : FieldDesc) (data : Byte) (s : State) :
    execExt fd data s = .next (answer s (extractField data fd)) := rfl

theorem execIns_eq (fd : FieldDesc) (data val : Byte) (s : State) :
    execIns fd data val s =
      .next (answer s (if fd.valid then insertNumeric data fd val else .error .invalidFieldSpec)) := by
  unfold execIns
  split <;> rfl

theorem execInsb_eq (fd : FieldDesc) (data : Byte) (str : BitString) (s : State) :
    execInsb fd data str s =
      .next (answer s (if fd.valid then insertString data fd str else .error .invalidFieldSpec)) := by
  unfold execInsb
  split <;> rfl

theorem execLay_eq (rk : Byte) (s : State) :
    execLay rk s = .next (answer s ((layoutFor s.schema rk).map fun l => BitVec.ofNat 8 l.length)) := by
  unfold execLay
  split <;> simp_all [Except.map]

theorem execFld_eq (rk fk : Byte) (s : State) :
    execFld rk fk s = .next (answer s ((fieldIn s.schema rk fk).map byteOfFd)) := by
  unfold execFld
  split <;> simp_all [Except.map]

theorem execXfr_eq (rk fk data : Byte) (s : State) :
    execXfr rk fk data s = .next (answer s ((fieldIn s.schema rk fk).map (extractBits data))) := by
  unfold execXfr
  split <;> simp_all [Except.map]

theorem execIfr_eq (rk fk data val : Byte) (s : State) :
    execIfr rk fk data val s =
      .next (answer s ((fieldIn s.schema rk fk).bind fun fd => insertNumeric data fd val)) := by
  unfold execIfr
  split <;> simp_all [Except.bind]

theorem execIfrb_eq (rk fk data : Byte) (str : BitString) (s : State) :
    execIfrb rk fk data str s =
      .next (answer s ((fieldIn s.schema rk fk).bind fun fd => insertString data fd str)) := by
  unfold execIfrb
  split <;> simp_all [Except.bind]

/-- The answer of each operation, a function of the schema and the instruction alone (00_scope.md R5). -/
def answerOf (sch : Schema) : Instr → Except BlockFault Byte
  | .ext fd data => extractField data fd
  | .ins fd data val => if fd.valid then insertNumeric data fd val else .error .invalidFieldSpec
  | .insb fd data str => if fd.valid then insertString data fd str else .error .invalidFieldSpec
  | .lay rk => (layoutFor sch rk).map fun l => BitVec.ofNat 8 l.length
  | .fld rk fk => (fieldIn sch rk fk).map byteOfFd
  | .xfr rk fk data => (fieldIn sch rk fk).map (extractBits data)
  | .ifr rk fk data val => (fieldIn sch rk fk).bind fun fd => insertNumeric data fd val
  | .ifrb rk fk data str => (fieldIn sch rk fk).bind fun fd => insertString data fd str

/-- Everything an operation can do: it answers, and that is all. -/
theorem exec_eq (i : Instr) (s : State) : exec i s = .next (answer s (answerOf s.schema i)) := by
  cases i with
  | ext fd data => exact execExt_eq fd data s
  | ins fd data val => exact execIns_eq fd data val s
  | insb fd data str => exact execInsb_eq fd data str s
  | lay rk => exact execLay_eq rk s
  | fld rk fk => exact execFld_eq rk fk s
  | xfr rk fk data => exact execXfr_eq rk fk data s
  | ifr rk fk data val => exact execIfr_eq rk fk data val s
  | ifrb rk fk data str => exact execIfrb_eq rk fk data str s

/-- The answer to a request word. -/
def answerTo (sch : Schema) (w : Request) : Except BlockFault Byte :=
  match decode w with
  | .ok i => answerOf sch i
  | .error _ => .error .illegalRequest

/-- Everything accepting a request can do: it answers. -/
theorem accept_eq (w : Request) (s : State) : accept w s = .next (answer s (answerTo s.schema w)) := by
  unfold accept answerTo
  cases decode w with
  | ok i => exact exec_eq i s
  | error r => rfl

/-! ## Steps -/

theorem step_idle {s : State} (h : s.env.agenda = []) : step s = .next s := by
  simp [step, h]

theorem step_cons {s : State} {a : HostAction} {rest : List HostAction} (h : s.env.agenda = a :: rest) :
    step s = hostAct a (s.withAgenda rest) := by
  simp [step, h]

theorem step_request {s : State} {w : Request} {rest : List HostAction} (h : s.env.agenda = .request w :: rest) :
    step s = .next (answer (s.withAgenda rest) (answerTo s.schema w)) := by
  rw [step_cons h]
  exact accept_eq w _

/-- The request given to `withFetchWord` is the next one the block answers. -/
theorem step_withFetchWord (s : State) (nbits w : Nat) :
    step (s.withFetchWord nbits w) = .next (answer s (answerTo s.schema (tableWord nbits w))) := by
  rw [step_request rfl]
  rfl

@[simp] theorem core_run_zero (s : State) : core.run 0 s = .next s := rfl

/-- A run goes on from the next state of its first step. -/
theorem core_run_succ {s t : State} (h : step s = .next t) (k : Nat) : core.run (k + 1) s = core.run k t := by
  have h' : core.step s = .next t := h
  simp only [Host.Core.run, h']

/-- A run goes on from where a shorter run of it ends. -/
theorem core_run_add (k : Nat) : ∀ {m : Nat} {s t : State}, core.run m s = .next t →
    core.run (m + k) s = core.run k t := by
  intro m
  induction m with
  | zero =>
    intro s t h
    cases h
    rw [Nat.zero_add]
  | succ m ih =>
    intro s t h
    rw [Nat.succ_add]
    cases hs : step s with
    | next u =>
      rw [core_run_succ hs] at h ⊢
      exact ih h
    | fault f => cases f
    | refused r =>
      have hs' : core.step s = .refused r := hs
      simp only [Host.Core.run, hs'] at h
      cases h

/-- What an action of the host other than a request or a reset can do to the block: nothing; and it keeps the chip's
memory in canonical form. -/
def KeepsBlock (s : State) (o : Host.Outcome State Fault Refusal) : Prop :=
  ∀ t, o = .next t → t.rsp = s.rsp ∧ t.schema = s.schema ∧ (s.env.chip.wf = true → t.env.chip.wf = true)

theorem busRead_keepsBlock (a : Byte) (s : State) : KeepsBlock s (busRead a s) := by
  intro t h
  unfold busRead at h
  split at h
  · rename_i hr
    cases h
    exact ⟨rfl, rfl, fun hm => by simpa using chipRead_wf hm hr⟩
  · cases h

theorem busWrite_keepsBlock (a v : Byte) (s : State) : KeepsBlock s (busWrite a v s) := by
  intro t h
  unfold busWrite at h
  split at h
  · rename_i hw
    cases h
    exact ⟨rfl, rfl, fun hm => by simpa using chipWrite_wf hm hw⟩
  · cases h

theorem busStrobe_keepsBlock (a : Byte) (s : State) : KeepsBlock s (busStrobe a s) := by
  intro t h
  unfold busStrobe at h
  split at h
  · rename_i hw
    cases h
    exact ⟨rfl, rfl, fun hm => by simpa using chipWrite_wf hm hw⟩
  · cases h

theorem busReadBurst_keepsBlock (a : Byte) (n : Nat) (s : State) : KeepsBlock s (busReadBurst a n s) := by
  intro t h
  unfold busReadBurst at h
  split at h <;> cases h <;> exact ⟨rfl, rfl, fun hm => by simpa using hm⟩

theorem busWriteBurst_keepsBlock (a : Byte) (data : List Byte) (s : State) : KeepsBlock s (busWriteBurst a data s) := by
  intro t h
  unfold busWriteBurst at h
  split at h
  · rename_i hw
    cases h
    exact ⟨rfl, rfl, fun hm => by simpa using chipWriteBurst_wf hm hw⟩
  · cases h

theorem withAddress_keepsBlock (ref : HostRef) (act : Byte → State → Host.Outcome State Fault Refusal) (s : State)
    (hact : ∀ a, KeepsBlock s (act a s)) : KeepsBlock s (withAddress ref act s) := by
  intro t h
  unfold withAddress at h
  split at h
  · exact hact _ t h
  · cases h
    exact ⟨rfl, rfl, fun hm => hm⟩

/-- An address given as an integer resolves to itself (20_memory.md R38). -/
@[simp] theorem resolveAddress_int (names : NameTable) (a : Byte) :
    resolveAddress names (.int a.toNat) = .ok a := by
  have := a.isLt
  simp [resolveAddress]
  omega

/-- At every address in a class the read completes: its frame goes out, the byte comes back, and the plan goes on with
what is made from the byte. -/
theorem readThen_eq {rk : Byte} (hc : addressClass rk ≠ .unmentioned) (next : Byte → List HostAction) (s : State) :
    ∃ d e, chipRead s.env rk = some (d, e) ∧ readThen rk next s =
      .next (doNext (s.withEnv { e with sent := [readByteFrame rk], received := [d] }) (next d)) := by
  cases hr : chipRead s.env rk with
  | none => exact absurd ((chipRead_isNone_iff _ _).1 hr) hc
  | some p => exact ⟨p.1, p.2, rfl, by simp [readThen, hr]⟩

/-- At every address in a class the write completes: its frame goes out and nothing comes back. -/
theorem busWrite_eq {a : Byte} (hc : addressClass a ≠ .unmentioned) (v : Byte) (s : State) :
    ∃ e, chipWrite s.env a v = some e ∧ busWrite a v s =
      .next (s.withEnv { e with sent := [writeByteFrame a v], received := [] }) := by
  cases hw : chipWrite s.env a v with
  | none => exact absurd ((chipWrite_isNone_iff _ _ _).1 hw) hc
  | some e => exact ⟨e, rfl, by simp [busWrite, hw]⟩

theorem readThen_keepsBlock (rk : Byte) (next : Byte → List HostAction) (s : State) :
    KeepsBlock s (readThen rk next s) := by
  intro t h
  unfold readThen at h
  split at h
  · rename_i hr
    cases h
    exact ⟨rfl, rfl, fun hm => by simpa [doNext] using chipRead_wf hm hr⟩
  · cases h

/-- What the host can do with an answer: go on, the response being OK, or report the block's fault. -/
theorem unlessFault_cases (act : State → Host.Outcome State Fault Refusal) (s : State) :
    (s.rsp.status = statusOk ∧ unlessFault act s = act s) ∨
    (s.rsp.status ≠ statusOk ∧ unlessFault act s = .next (report s (.blockFault s.rsp.status))) := by
  unfold unlessFault
  split <;> simp_all

theorem unlessFault_keepsBlock {act : State → Host.Outcome State Fault Refusal} {s : State}
    (hact : KeepsBlock s (act s)) : KeepsBlock s (unlessFault act s) := by
  rcases unlessFault_cases act s with ⟨-, h⟩ | ⟨-, h⟩ <;> rw [h]
  · exact hact
  · intro t ht
    cases ht
    exact ⟨rfl, rfl, fun hm => hm⟩

theorem rdfResult_keepsBlock (s : State) : KeepsBlock s (rdfResult s) :=
  unlessFault_keepsBlock fun t h => by
    cases h
    exact ⟨rfl, rfl, fun hm => hm⟩

theorem writeBack_keepsBlock (rk : Byte) (s : State) : KeepsBlock s (writeBack rk s) :=
  unlessFault_keepsBlock (busWrite_keepsBlock _ _ s)

theorem pollTurn_keepsBlock (rk fk want : Byte) (n : Nat) (s : State) : KeepsBlock s (pollTurn rk fk want n s) := by
  intro t h
  cases n <;> cases h <;> exact ⟨rfl, rfl, fun hm => hm⟩

theorem pollCompare_keepsBlock (rk fk want : Byte) (n : Nat) (s : State) :
    KeepsBlock s (pollCompare rk fk want n s) :=
  unlessFault_keepsBlock fun t h => by
    split at h <;> cases h <;> exact ⟨rfl, rfl, fun hm => hm⟩

/-- What the last part of RDF can do: the plan goes on, and a fault has been reported. -/
theorem step_rdfResult_cases {s : State} {rest : List HostAction} (h : s.env.agenda = .rdfResult :: rest) :
    (s.rsp.status = statusOk ∧ step s = .next (s.withAgenda rest)) ∨
    (s.rsp.status ≠ statusOk ∧ step s = .next (report (s.withAgenda rest) (.blockFault s.rsp.status))) := by
  rw [step_cons h]
  exact unlessFault_cases .next (s.withAgenda rest)

/-- The whole of RDF, at every address in a class: after three steps the block has answered and the plan goes on; no byte
of the chip's memory has changed but at a strobe address, and only a fault has been reported. -/
theorem run_rdf {s : State} {rk fk : Byte} {rest : List HostAction} (hc : addressClass rk ≠ .unmentioned)
    (h : s.env.agenda = .rdf rk fk :: rest) :
    ∃ t, core.run 3 s = .next t ∧ t.env.agenda = rest ∧ t.schema = s.schema ∧
      (t.env.chip = s.env.chip ∨ addressClass rk = .strobe) ∧
      (t.rsp.status = statusOk → t.env.reported = s.env.reported) ∧
      (t.rsp.status ≠ statusOk → t.env.reported = some (.blockFault t.rsp.status)) := by
  obtain ⟨d, e, hr, hx⟩ := readThen_eq hc (fun d => [.request (encode (.xfr rk fk d)), .rdfResult]) (s.withAgenda rest)
  obtain ⟨hchip, hplan, hrep⟩ := chipRead_frame hr
  have hkeep : e.chip = s.env.chip ∨ addressClass rk = .strobe := hchip.imp id And.left
  rw [core_run_succ ((step_cons h).trans hx), core_run_succ (step_request (rest := .rdfResult :: rest)
    (by simp only [doNext, State.withAgenda_agenda, State.withEnv_env, hplan]; rfl))]
  generalize answerTo _ _ = x
  generalize hu : answer _ x = u
  have hkept : u.env.agenda = .rdfResult :: rest ∧ u.schema = s.schema ∧ u.env.chip = e.chip ∧
      u.env.reported = e.reported := by
    rw [← hu]
    rcases answer_cases _ x with ⟨r, -, ha⟩ | ⟨f, -, ha⟩ <;> rw [ha] <;> exact ⟨rfl, rfl, rfl, rfl⟩
  obtain ⟨hplan', hschema, hchip', hrep'⟩ := hkept
  rcases step_rdfResult_cases hplan' with ⟨hok, hstep⟩ | ⟨hf, hstep⟩ <;> rw [core_run_succ hstep, core_run_zero]
  · exact ⟨_, rfl, rfl, hschema, hchip'.symm ▸ hkeep, fun _ => hrep'.trans hrep, fun hn => absurd hok hn⟩
  · exact ⟨_, rfl, rfl, hschema, hchip'.symm ▸ hkeep, fun ho => absurd ho hf, fun _ => rfl⟩

/-- Everything one action of the host can do: present a request, which is answered; reset the block; or leave the block alone. -/
theorem hostAct_cases (a : HostAction) (s : State) :
    (∃ w, a = .request w ∧ hostAct a s = .next (answer s (answerTo s.schema w))) ∨
    (a = .resetBlock ∧ hostAct a s = .next (resetBlock s)) ∨
    KeepsBlock s (hostAct a s) := by
  cases a with
  | request w => exact .inl ⟨w, rfl, accept_eq w s⟩
  | resetBlock => exact .inr (.inl ⟨rfl, rfl⟩)
  | readByte ref => exact .inr (.inr (withAddress_keepsBlock _ _ _ fun a => busRead_keepsBlock a s))
  | writeByte ref v => exact .inr (.inr (withAddress_keepsBlock _ _ _ fun a => busWrite_keepsBlock a v s))
  | strobe ref => exact .inr (.inr (withAddress_keepsBlock _ _ _ fun a => busStrobe_keepsBlock a s))
  | readBurst ref n => exact .inr (.inr (withAddress_keepsBlock _ _ _ fun a => busReadBurst_keepsBlock a n s))
  | writeBurst ref data => exact .inr (.inr (withAddress_keepsBlock _ _ _ fun a => busWriteBurst_keepsBlock a data s))
  | rdf rk fk => exact .inr (.inr (readThen_keepsBlock _ _ s))
  | rdfResult => exact .inr (.inr (rdfResult_keepsBlock s))
  | wrf rk fk v => exact .inr (.inr (readThen_keepsBlock _ _ s))
  | wrfb rk fk vlen val => exact .inr (.inr (readThen_keepsBlock _ _ s))
  | writeBack rk => exact .inr (.inr (writeBack_keepsBlock rk s))
  | poll rk fk want n => exact .inr (.inr (pollTurn_keepsBlock rk fk want n s))
  | pollCheck rk fk want n => exact .inr (.inr (pollCompare_keepsBlock rk fk want n s))

/-- Everything a step can do. -/
theorem step_cases (s : State) :
    (s.env.agenda = [] ∧ step s = .next s) ∨
    (∃ w rest, s.env.agenda = .request w :: rest ∧
      step s = .next (answer (s.withAgenda rest) (answerTo s.schema w))) ∨
    (∃ rest, s.env.agenda = .resetBlock :: rest ∧ step s = .next (resetBlock (s.withAgenda rest))) ∨
    KeepsBlock s (step s) := by
  cases h : s.env.agenda with
  | nil => exact .inl ⟨rfl, step_idle h⟩
  | cons a rest =>
    rcases hostAct_cases a (s.withAgenda rest) with ⟨w, rfl, hw⟩ | ⟨rfl, hr⟩ | hk
    · exact .inr (.inl ⟨w, rest, rfl, (step_cons h).trans hw⟩)
    · exact .inr (.inr (.inl ⟨rest, rfl, (step_cons h).trans hr⟩))
    · exact .inr (.inr (.inr (by rw [step_cons h]; exact hk)))

end Sys2Proof.Machine
end

