-- ==== Sys2Proof/Tests/Slice0.lean ====
section
/-! SUPPORT. Small tests, each on one step or one word, with expected values from spec/95_test_vectors.md, and a witness for the hypotheses of every statement. -/

open Sys2Proof Sys2Proof.Machine Sys2Proof.Reference

namespace Sys2Proof.Tests

/-! ## Well-formedness: one ill-formed term for each check -/

theorem test_wellFormed_accepts : (Instr.insb ⟨15, 15⟩ 0 ⟨8, 0xFF⟩).wellFormed = true := by decide
theorem test_wellFormed_refuses_index_16 : (Instr.ext ⟨16, 1⟩ 0).wellFormed = false := by decide
theorem test_wellFormed_refuses_width_16 : (Instr.ins ⟨0, 16⟩ 0 0).wellFormed = false := by decide
theorem test_wellFormed_refuses_empty_string : (Instr.ifrb 0 0 0 ⟨0, 0⟩).wellFormed = false := by decide
theorem test_wellFormed_refuses_long_string : (Instr.ifrb 0 0 0 ⟨9, 0⟩).wellFormed = false := by decide
theorem test_wellFormed_refuses_stray_bit : (Instr.insb ⟨5, 2⟩ 0 ⟨2, 4⟩).wellFormed = false := by decide

/-! ## Schemas that are not well-formed (95_test_vectors.md section 2.4) -/

theorem test_schema_fixture_wf : fixture.wf = true := by decide
theorem test_schema_refuses_overlap : Schema.wf [⟨0x08, [⟨1, ⟨0, 3⟩⟩, ⟨2, ⟨2, 2⟩⟩]⟩] = false := by decide
theorem test_schema_refuses_past_the_byte : Schema.wf [⟨0x08, [⟨1, ⟨6, 3⟩⟩]⟩] = false := by decide
theorem test_schema_refuses_width_zero : Schema.wf [⟨0x08, [⟨1, ⟨0, 0⟩⟩]⟩] = false := by decide
theorem test_schema_refuses_field_key_twice : Schema.wf [⟨0x08, [⟨1, ⟨0, 1⟩⟩, ⟨1, ⟨1, 1⟩⟩]⟩] = false := by decide
theorem test_schema_refuses_register_key_twice : Schema.wf [⟨0x08, []⟩, ⟨0x08, []⟩] = false := by decide

/-! ## Decoding: words written out from 30_encoding.md R50 to R54, `OP VLEN A B DATA VAL` -/

theorem test_decode_ext : decode 0b0001000001110001000000000000010100000000 = .ok (.ext ⟨7, 1⟩ 5) := by rfl
theorem test_decode_ins : decode 0b0010000001010010000000000000100100000011 = .ok (.ins ⟨5, 2⟩ 9 3) := by rfl
theorem test_decode_insb : decode 0b0011001001010010000000000000100100000011 = .ok (.insb ⟨5, 2⟩ 9 ⟨2, 3⟩) := by rfl
theorem test_decode_lay : decode 0b0100000000001000000000000000000000000000 = .ok (.lay 8) := by rfl
theorem test_decode_fld : decode 0b0101000000001000000000110000000000000000 = .ok (.fld 8 3) := by rfl
theorem test_decode_xfr : decode 0b0110000011110101000000010010110100000000 = .ok (.xfr 0xF5 1 0x2D) := by rfl
theorem test_decode_ifr : decode 0b0111000000001000000000101011010100000001 = .ok (.ifr 8 2 0xB5 1) := by rfl
theorem test_decode_ifrb : decode 0b1000001000001000000000110000100100000011 = .ok (.ifrb 8 3 9 ⟨2, 3⟩) := by rfl
theorem test_decode_all_zero : decode 0 = .error .reservedOpcode := by rfl
theorem test_decode_all_one : decode 0xFFFFFFFFFF = .error .reservedOpcode := by rfl
theorem test_decode_ext_with_val : decode 0x1071000501 = .error .unusedFieldNotZero := by rfl
theorem test_decode_insb_empty : decode 0x3052000900 = .error .emptyBitString := by rfl
theorem test_decode_insb_nine : decode 0x3908000900 = .error .bitStringTooLong := by rfl
theorem test_decode_insb_stray : decode 0x3252000904 = .error .strayBits := by rfl
theorem test_decodeTableWord : decodeTableWord 40 0x60F5012D00 = some (.xfr 0xF5 1 0x2D) := by rfl
theorem test_requestBytes : requestBytes 0x1071000500 = [0x10, 0x71, 0x00, 0x05, 0x00] := by decide
theorem test_decodeBytes_short : decodeBytes [0x10, 0x71, 0x00, 0x05] = none := by rfl

/-! ## One step on schema FX, expected responses from 95_test_vectors.md -/

/-- The machine after reset with the fixture schema and a plan for the host. -/
def fx (plan : List HostAction) : State := { State.reset with schema := fixture }.withAgenda plan

/-- The response to one request word. -/
def rspOf (w : Request) : Option Rsp := outcomeRsp (step (fx [.request w]))

theorem test_ext_s1 : rspOf 0x1071000500 = some ⟨true, 0x00, 0x01⟩ := by decide
theorem test_ext_sum_nine : rspOf 0x101800FF00 = some ⟨true, 0x01, 0x00⟩ := by decide
theorem test_ins_clears_old_bits : rspOf 0x205200FF01 = some ⟨true, 0x00, 0xFB⟩ := by decide
theorem test_ins_mask_plus_one : rspOf 0x2052000904 = some ⟨true, 0x02, 0x00⟩ := by decide
theorem test_insb_s3 : rspOf 0x3252000903 = some ⟨true, 0x00, 0x0F⟩ := by decide
theorem test_insb_longer_than_field : rspOf 0x3352000900 = some ⟨true, 0x02, 0x00⟩ := by decide
theorem test_lay_empty_layout : rspOf 0x4020000000 = some ⟨true, 0x00, 0x00⟩ := by decide
theorem test_lay_absent : rspOf 0x4035000000 = some ⟨true, 0x03, 0x00⟩ := by decide
theorem test_fld_found : rspOf 0x5008030000 = some ⟨true, 0x00, 0x52⟩ := by decide
theorem test_fld_other_registers_key : rspOf 0x5008050000 = some ⟨true, 0x04, 0x00⟩ := by decide
theorem test_xfr_state : rspOf 0x60F5012D00 = some ⟨true, 0x00, 0x0D⟩ := by decide
theorem test_xfr_unknown_register : rspOf 0x600901FF00 = some ⟨true, 0x03, 0x00⟩ := by decide
theorem test_ifr_uncovered_bit : rspOf 0x701205F807 = some ⟨true, 0x00, 0xFF⟩ := by decide
theorem test_ifr_field_before_value : rspOf 0x700807B5FF = some ⟨true, 0x04, 0x00⟩ := by decide
theorem test_ifrb_padded : rspOf 0x8108011F01 = some ⟨true, 0x00, 0x3F⟩ := by decide
theorem test_ifrb_longer_than_field : rspOf 0x8308030903 = some ⟨true, 0x02, 0x00⟩ := by decide
theorem test_illegal_before_all : rspOf 0x6009030901 = some ⟨true, 0x0F, 0x00⟩ := by decide
theorem test_descriptor_before_value : rspOf 0x20720000FF = some ⟨true, 0x01, 0x00⟩ := by decide
theorem test_idle_after_reset : step State.reset = .next State.reset := by rfl
theorem test_withFetchWord : outcomeRsp (step ((fx []).withFetchWord 40 0x1008 )) = some ⟨true, 0x0F, 0x00⟩ := by decide
theorem test_fetched_lay : outcomeRsp (step ((fx []).withFetchWord 40 0x4008000000)) = some ⟨true, 0x00, 0x04⟩ := by
  decide

/-! ## The environment: programs P1 and P2 (95_test_vectors.md section 3), one step each -/

/-- The fixture machine whose chip holds `T[0x08] = 0xB5` and will return 0x2D from a status register. -/
def chipState (plan : List HostAction) : State :=
  { fx plan with env := { (fx plan).env with chip := [(0x08, 0xB5)], incoming := [0x2D] } }

/-- What an outcome sent on the bus, what the host received, and what the host does next. -/
def busOf : Host.Outcome State Fault Refusal → Option (List (List Byte) × List Byte × List HostAction)
  | .next t => some (t.env.sent, t.env.received, t.env.agenda)
  | .fault _ => none
  | .refused _ => none

theorem test_p1_rdf_reads : busOf (step (chipState [.rdf 0xF5 0x01])) =
    some ([[0xF5, 0x00]], [0x2D], [.request 0x60F5012D00, .rdfResult]) := by decide
theorem test_p2_wrf_reads : busOf (step (chipState [.wrf 0x08 0x02 1])) =
    some ([[0x88, 0x00]], [0xB5], [.request 0x700802B501, .writeBack 0x08]) := by decide

/-- P2, step 3: the write-back of an OK response. -/
def afterIfr : State := { chipState [.writeBack 0x08] with rsp := ⟨true, 0x00, 0xAD⟩ }

/-- What the chip holds after an outcome. -/
def chipOf : Host.Outcome State Fault Refusal → Option Memory
  | .next t => some t.env.chip
  | .fault _ => none
  | .refused _ => none

theorem test_p2_writes_back : chipOf (step afterIfr) = some [(0x08, 0xAD)] := by decide
theorem test_p2_fault_writes_nothing :
    chipOf (step { afterIfr with rsp := ⟨true, 0x02, 0x00⟩ }) = some [(0x08, 0xB5)] := by decide
/-- The frame of R34 goes out at a status address, the same first byte as `readByte` there (90_conflicts.md C2). -/
theorem test_status_write_sends : busOf (step (chipState [.writeByte (.int 0xF5) 0x3A])) =
    some ([[0xF5, 0x3A]], [], []) := by decide
/-- The frame of R33 goes out at a strobe address. -/
theorem test_strobe_read_sends : busOf (step (chipState [.readByte (.int 0x35)])) =
    some ([[0xB5, 0x00]], [0x2D], []) := by decide
/-- R108: a fault of RDF is reported to the caller. -/
theorem test_rdf_fault_reported : (match step { chipState [.rdfResult] with rsp := ⟨true, 0x04, 0x00⟩ } with
    | .next t => t.env.reported
    | _ => none) = some (.blockFault 0x04) := by decide
theorem test_writeBurst_frame : writeBurstFrame 0x3F [0x02, 0x41, 0x42] = [0x7F, 0x02, 0x41, 0x42] := by decide
theorem test_class_of_gap : addressClass 0x2F = .unmentioned := by decide
theorem test_written_form : Instr.written (.insb ⟨5, 2⟩ 9 ⟨2, 3⟩) = "INSB fd(5,2), 9, \"11\"" := by decide
theorem test_names_strobe_class : namesOk [("SRES", 0x30), ("FIFO", 0x3F)] = true ∧ namesOk [("SRES", 0x20)] = false := by
  decide

theorem test_stated_width : agreesWithStatedWidths fixture [("MARCSTATE", 0xF5)] [(("MARCSTATE", "state"), 0x01)] = true ∧
    agreesWithStatedWidths fixture [("MDMCFG2", 0x12)] [(("MDMCFG2", "MOD_FORMAT"), 0x01)] = false := by decide
/-- 10_state.md R23, row DRATE_M: a whole byte, in whichever register it stands. -/
theorem test_drate_m_is_a_whole_byte :
    agreesWithStatedWidths fixture [("X", 0x3E)] [(("X", "DRATE_M"), 0x01)] = true ∧
    agreesWithStatedWidths fixture [("X", 0xF5)] [(("X", "DRATE_M"), 0x01)] = false := by decide

/-! ## Witnesses: the hypotheses of every statement can be met together -/

theorem witness_ResetClearsOnlyTheResponse : ∃ (s : State) (rest : List HostAction),
    s.env.agenda = .resetBlock :: rest := ⟨fx [.resetBlock], [], rfl⟩

theorem witness_OneStepPerRequest_idle : ∃ s : State, s.env.agenda = [] := ⟨State.reset, rfl⟩

theorem witness_OneStepPerRequest_request : ∃ (s : State) (w : Request) (rest : List HostAction),
    s.env.agenda = .request w :: rest := ⟨fx [.request 0], 0, [], rfl⟩

theorem witness_StepRunsTheDecodedInstruction : ∃ (s : State) (w : Request) (rest : List HostAction) (i : Instr),
    s.env.agenda = .request w :: rest ∧ decode w = .ok i := ⟨fx [.request 0x4008000000], _, [], .lay 8, rfl, by rfl⟩

theorem witness_ExactlyIllegalWords_illegal : ∃ (s : State) (w : Request) (rest : List HostAction),
    s.env.agenda = .request w :: rest ∧ illegal w.toNat = true := ⟨fx [.request 0x3908000900], _, [], rfl, by decide⟩

theorem witness_ExactlyIllegalWords_legal : ∃ (s t : State) (w : Request) (rest : List HostAction),
    s.env.agenda = .request w :: rest ∧ illegal w.toNat = false ∧ step s = .next t :=
  ⟨fx [.request 0x38080000FF], _, _, [], rfl, by decide, rfl⟩

theorem witness_DecoderAcceptsExactly : ∃ (w : Request) (i : Instr) (row : OpcodeRow), decode w = .ok i ∧
    row ∈ opcodeTable ∧ w &&& row.mask = row.pattern :=
  ⟨0x4008000000, .lay 8, ⟨"LAY", 0xFF00FFFFFF, 0x4000000000, false⟩, by rfl, by decide, by decide⟩

theorem witness_DecodeOfEncode : ∃ i : Instr, i.wellFormed = true := ⟨.insb ⟨15, 15⟩ 0xFF ⟨8, 0xFF⟩, by decide⟩

theorem witness_EncodeOfDecode : ∃ (w : Request) (i : Instr), decode w = .ok i := ⟨0x4008000000, .lay 8, by rfl⟩

theorem witness_ExtAnswers_valid : ∃ i w : Nat, i ≤ 7 ∧ 1 ≤ w ∧ w ≤ 8 ∧ i + w ≤ 8 := ⟨0, 8, by decide⟩

theorem witness_InsReplacesTheField_fits : ∃ (i w : Nat) (v : Byte),
    (i ≤ 7 ∧ 1 ≤ w ∧ w ≤ 8 ∧ i + w ≤ 8) ∧ ¬ (1 <<< w) - 1 < v.toNat := ⟨5, 2, 3, by decide, by decide⟩

theorem witness_InsReplacesTheField_tooLarge : ∃ (i w : Nat) (v : Byte),
    (i ≤ 7 ∧ 1 ≤ w ∧ w ≤ 8 ∧ i + w ≤ 8) ∧ (1 <<< w) - 1 < v.toNat := ⟨5, 2, 4, by decide, by decide⟩

theorem witness_InsbReplaces_fits : ∃ (i w : Nat) (str : BitString), str.wellFormed = true ∧
    (i ≤ 7 ∧ 1 ≤ w ∧ w ≤ 8 ∧ i + w ≤ 8) ∧ str.len ≤ w := ⟨0, 8, ⟨8, 0xFF⟩, by decide, by decide, by decide⟩

theorem witness_InsbReplaces_tooLong : ∃ (i w : Nat) (str : BitString), str.wellFormed = true ∧
    (i ≤ 7 ∧ 1 ≤ w ∧ w ≤ 8 ∧ i + w ≤ 8) ∧ w < str.len := ⟨5, 2, ⟨3, 0⟩, by decide, by decide, by decide⟩

/-- The field MID2 of the fixture. -/
theorem holds_mid2 : Holds fixture 0x08 0x02 ⟨3, 2⟩ :=
  ⟨_, List.mem_cons_self, rfl, ⟨0x02, ⟨3, 2⟩⟩, by decide, rfl, rfl⟩

/-- The field LO2 of the fixture. -/
theorem holds_lo2 : Holds fixture 0x08 0x03 ⟨5, 2⟩ :=
  ⟨_, List.mem_cons_self, rfl, ⟨0x03, ⟨5, 2⟩⟩, by decide, rfl, rfl⟩

/-- The whole-byte field of the fixture. -/
theorem holds_all : Holds fixture 0x3E 0x01 ⟨0, 8⟩ :=
  ⟨⟨0x3E, [⟨0x01, ⟨0, 8⟩⟩]⟩, by decide, rfl, ⟨0x01, ⟨0, 8⟩⟩, by decide, rfl, rfl⟩

theorem noRegister_09 : NoRegister fixture 0x09 := by unfold NoRegister; decide

theorem noField_20 : NoField fixture 0x20 0x01 := ⟨⟨0x20, []⟩, by decide, rfl, by decide⟩

theorem witness_LayCountsTheLayout : ∃ (rk rk' : Byte) (s : State), s.schema.wf = true ∧
    (∃ e ∈ s.schema, e.key = rk) ∧ NoRegister s.schema rk' :=
  ⟨0x20, 0x09, fx [], by decide, ⟨⟨0x20, []⟩, by decide, rfl⟩, noRegister_09⟩

theorem witness_FldAnswers : ∃ s : State, s.schema.wf = true ∧ Holds s.schema 0x3E 0x01 ⟨0, 8⟩ ∧
    NoRegister s.schema 0x09 ∧ NoField s.schema 0x20 0x01 :=
  ⟨fx [], by decide, holds_all, noRegister_09, noField_20⟩

theorem witness_XfrAnswers : ∃ s : State, s.schema.wf = true ∧ Holds s.schema 0x08 0x02 ⟨3, 2⟩ ∧
    NoRegister s.schema 0x09 ∧ NoField s.schema 0x20 0x01 :=
  ⟨fx [], by decide, holds_mid2, noRegister_09, noField_20⟩

theorem witness_IfrReplaces : ∃ (s : State) (v v' : Byte), s.schema.wf = true ∧ Holds s.schema 0x08 0x02 ⟨3, 2⟩ ∧
    ¬ (1 <<< 2) - 1 < v.toNat ∧ (1 <<< 2) - 1 < v'.toNat ∧ NoRegister s.schema 0x09 ∧ NoField s.schema 0x20 0x01 :=
  ⟨fx [], 3, 4, by decide, holds_mid2, by decide, by decide, noRegister_09, noField_20⟩

theorem witness_IfrbReplaces : ∃ (s : State) (str str' : BitString), s.schema.wf = true ∧ str.wellFormed = true ∧
    str'.wellFormed = true ∧ Holds s.schema 0x08 0x02 ⟨3, 2⟩ ∧ ¬ 2 < str.len ∧ 2 < str'.len ∧
    NoRegister s.schema 0x09 ∧ NoField s.schema 0x20 0x01 :=
  ⟨fx [], ⟨2, 3⟩, ⟨3, 3⟩, by decide, by decide, by decide, holds_mid2, by decide, by decide, noRegister_09, noField_20⟩

theorem witness_SchemaFormsAgree_found : ∃ (s t : State), s.schema.wf = true ∧ exec (.fld 0x12 0x02) s = .next t ∧
    t.rsp.status = 0x00 := ⟨fx [], _, by decide, rfl, by decide⟩

theorem witness_SchemaFormsAgree_fault : ∃ (s t : State), s.schema.wf = true ∧ exec (.fld 0x09 0x03) s = .next t ∧
    t.rsp.status ≠ 0x00 := ⟨fx [], _, by decide, rfl, by decide⟩

theorem witness_FldByteIsAlwaysValid : ∃ (s t u : State), s.schema.wf = true ∧ exec (.fld 0x12 0x02) s = .next t ∧
    t.rsp.status = 0x00 ∧ exec (.ext (fdOfByte t.rsp.result) 0x5F) s = .next u :=
  ⟨fx [], _, _, by decide, rfl, by decide, rfl⟩

theorem witness_InvalidFieldSpecExactly : ∃ (s t : State), s.schema.wf = true ∧
    exec (.ext ⟨1, 8⟩ 0xFF) s = .next t ∧ t.rsp.status = 0x01 := ⟨fx [], _, by decide, rfl, by decide⟩

theorem witness_ValueOutOfRangeExactly : ∃ (i : Instr) (s t : State), s.schema.wf = true ∧ i.wellFormed = true ∧
    exec i s = .next t ∧ t.rsp.status = 0x02 := ⟨.ifr 0x08 0x02 0xB5 4, fx [], _, by decide, by decide, rfl, by decide⟩

theorem witness_ValueOutOfRangeExactly_width8 : ∃ (s t : State), s.schema.wf = true ∧
    (Instr.insb ⟨0, 8⟩ 0 ⟨8, 0xFF⟩).wellFormed = true ∧ exec (.insb ⟨0, 8⟩ 0 ⟨8, 0xFF⟩) s = .next t ∧
    presented? (.insb ⟨0, 8⟩ 0 ⟨8, 0xFF⟩) = some ⟨0, 8⟩ := ⟨fx [], _, by decide, by decide, rfl, rfl⟩

theorem witness_UnknownRegisterExactly : ∃ (s t : State), exec (.lay 0x35) s = .next t ∧ t.rsp.status = 0x03 :=
  ⟨fx [], _, rfl, by decide⟩

theorem witness_UnknownFieldExactly : ∃ (s t : State), s.schema.wf = true ∧ exec (.xfr 0x20 0x01 0xFF) s = .next t ∧
    t.rsp.status = 0x04 := ⟨fx [], _, by decide, rfl, by decide⟩

/-- A request step of the fixture machine exists for every word. -/
theorem witness_FaultPriority : ∃ (s t : State) (w : Request) (rest : List HostAction), s.schema.wf = true ∧
    s.env.agenda = .request w :: rest ∧ step s = .next t ∧ (∃ r, decode w = .error r) :=
  ⟨fx [.request 0x8009010000], _, _, [], by decide, rfl, rfl, .emptyBitString, by rfl⟩

theorem witness_FaultPriority_register : ∃ (s t : State) (w : Request) (rest : List HostAction), s.schema.wf = true ∧
    s.env.agenda = .request w :: rest ∧ step s = .next t ∧ decode w = .ok (.ifr 0x09 0x63 0 0xFF) ∧
    registerKey? (.ifr 0x09 0x63 0 0xFF) = some 0x09 ∧ NoRegister s.schema 0x09 :=
  ⟨fx [.request 0x70096300FF], _, _, [], by decide, rfl, rfl, by rfl, rfl, noRegister_09⟩

theorem witness_FaultPriority_field : ∃ (s t : State) (w : Request) (rest : List HostAction), s.schema.wf = true ∧
    s.env.agenda = .request w :: rest ∧ step s = .next t ∧ decode w = .ok (.ifr 0x20 0x01 0 0xFF) ∧
    fieldKeys? (.ifr 0x20 0x01 0 0xFF) = some (0x20, 0x01) ∧ NoField s.schema 0x20 0x01 :=
  ⟨fx [.request 0x70200100FF], _, _, [], by decide, rfl, rfl, by rfl, rfl, noField_20⟩

theorem witness_FaultPriority_descriptor : ∃ (s t : State) (w : Request) (rest : List HostAction), s.schema.wf = true ∧
    s.env.agenda = .request w :: rest ∧ step s = .next t ∧ decode w = .ok (.ins ⟨7, 2⟩ 0 0xFF) ∧
    presented? (.ins ⟨7, 2⟩ 0 0xFF) = some ⟨7, 2⟩ ∧ (FieldDesc.mk 7 2).valid = false :=
  ⟨fx [.request 0x20720000FF], _, _, [], by decide, rfl, rfl, by rfl, rfl, by decide⟩

theorem witness_FaultPriority_value : ∃ (s t : State) (w : Request) (rest : List HostAction), s.schema.wf = true ∧
    s.env.agenda = .request w :: rest ∧ step s = .next t ∧ decode w = .ok (.ins ⟨5, 2⟩ 9 4) ∧
    presented? (.ins ⟨5, 2⟩ 9 4) = some ⟨5, 2⟩ ∧ (FieldDesc.mk 5 2).valid = true :=
  ⟨fx [.request 0x2052000904], _, _, [], by decide, rfl, rfl, by rfl, rfl, by decide⟩

theorem witness_FaultChangesOnlyTheResponse : ∃ (s t : State) (w : Request) (rest : List HostAction),
    s.env.agenda = .request w :: rest ∧ step s = .next t ∧ t.rsp.status ≠ 0x00 :=
  ⟨fx [.request 0], _, _, [], rfl, rfl, by decide⟩

theorem witness_RequestAfterAFault : ∃ (s t : State) (w v : Request) (rest : List HostAction),
    s.env.agenda = .request w :: .request v :: rest ∧ step s = .next t ∧ t.rsp.status ≠ 0x00 :=
  ⟨fx [.request 0x2052000F04, .request 0x1008000F00], _, _, _, [], rfl, rfl, by decide⟩

theorem witness_AnswerDependsOnly : ∃ (s u s' u' : State) (w : Request) (rest rest' : List HostAction),
    s.env.agenda = .request w :: rest ∧ u.env.agenda = .request w :: rest' ∧ s.schema = u.schema ∧ s ≠ u ∧
    step s = .next s' ∧ step u = .next u' :=
  ⟨fx [.request 0x4008000000], chipState [.request 0x4008000000], _, _, _, [], [], rfl, rfl, rfl, by decide, rfl, rfl⟩

theorem witness_SchemaNeverChanges : ∃ s t : State, step s = .next t := ⟨fx [.request 0], _, rfl⟩

theorem witness_BlockIsThePureFunction : ∃ (s : State) (w : Request) (rest : List HostAction), s.schema.wf = true ∧
    s.env.agenda = .request w :: rest := ⟨fx [.request 0x60F5012D00], _, [], by decide, rfl⟩

/-- The reference function on the spec's own vectors, one for each operation and one illegal word. -/
theorem test_reference_response :
    [0x1071000500, 0x2052000903, 0x3252000903, 0x4008000000, 0x5008030000, 0x60F5012D00, 0x700802B501, 0x8208030903,
      0x9000000000].map (response fixture) =
    [(0, 1), (0, 0x0F), (0, 0x0F), (0, 4), (0, 0x52), (0, 0x0D), (0, 0xAD), (0, 0x0F), (0x0F, 0)] := by decide

theorem witness_EveryStepKeepsTheInvariant : ∃ s t : State, s.inv = true ∧ step s = .next t :=
  ⟨chipState [.writeByte (.int 0x08) 0xAD], _, by decide, rfl⟩

theorem witness_BuiltBlocks : ∃ (sch : Schema) (s : State), State.construct sch = some s := ⟨fixture, _, by rfl⟩

theorem witness_ExtractIsAMultiplexer : ∃ (fd : FieldDesc) (s t : State), fd.valid = true ∧
    exec (.ext fd 0xA7) s = .next t := ⟨⟨0, 8⟩, fx [], _, by decide, rfl⟩

theorem witness_InsertIsAMultiplexer : ∃ (fd : FieldDesc) (v : Byte) (s t : State), fd.valid = true ∧
    v.toNat < 2 ^ fd.width ∧ exec (.ins fd 0xE0 v) s = .next t := ⟨⟨3, 5⟩, 0x1F, fx [], _, by decide, by decide, rfl⟩

theorem witness_RoundTrip : ∃ fd : FieldDesc, fd.valid = true := ⟨⟨0, 8⟩, by decide⟩

theorem witness_InsertNeverAlters_direct : ∃ (s t : State) (str : BitString), s.schema.wf = true ∧
    exec (.ins ⟨3, 2⟩ 0xB5 1) s = .next t ∧ str.wellFormed = true ∧ t.rsp.status = 0x00 :=
  ⟨fx [], _, ⟨1, 1⟩, by decide, rfl, by decide, by decide⟩

theorem witness_InsertNeverAlters_schema : ∃ (s t : State) (str : BitString), s.schema.wf = true ∧
    Holds s.schema 0x08 0x02 ⟨3, 2⟩ ∧ exec (.ifrb 0x08 0x02 0xB5 str) s = .next t ∧ str.wellFormed = true ∧
    t.rsp.status = 0x00 := ⟨fx [], _, ⟨2, 1⟩, by decide, holds_mid2, rfl, by decide, by decide⟩

theorem witness_ReadBack : ∃ (fd : FieldDesc) (v : Byte), fd.valid = true ∧ v.toNat ≤ fd.mask :=
  ⟨⟨0, 8⟩, 0xFF, by decide, by decide⟩

theorem witness_LastInsertWins : ∃ (fd : FieldDesc) (u v : Byte), fd.valid = true ∧ u.toNat ≤ fd.mask ∧
    v.toNat ≤ fd.mask := ⟨⟨5, 2⟩, 3, 0, by decide, by decide, by decide⟩

theorem witness_DisjointFields : ∃ (f g : FieldDesc) (u v : Byte), f.valid = true ∧ g.valid = true ∧
    f.overlaps g = false ∧ u.toNat ≤ f.mask ∧ v.toNat ≤ g.mask :=
  ⟨⟨0, 2⟩, ⟨2, 6⟩, 3, 0x35, by decide, by decide, by decide, by decide, by decide⟩

theorem witness_FieldsOfOneRegister : ∃ (s t : State), s.schema.wf = true ∧ (0x02 : Byte) ≠ 0x03 ∧
    Holds s.schema 0x08 0x02 ⟨3, 2⟩ ∧ Holds s.schema 0x08 0x03 ⟨5, 2⟩ ∧
    exec (.ifr 0x08 0x02 0xB5 1) s = .next t ∧ t.rsp.status = 0x00 :=
  ⟨fx [], _, by decide, by decide, holds_mid2, holds_lo2, rfl, by decide⟩

theorem witness_OverlapIsIntervalIntersection : ∃ f g : FieldDesc, f.valid = true ∧ g.valid = true ∧
    f.overlaps g = true := ⟨⟨0, 3⟩, ⟨2, 2⟩, by decide, by decide, by decide⟩

theorem witness_OverlapIsIntervalIntersection_schema : ∃ (sch : Schema) (e : RegisterEntry), sch.wf = true ∧ e ∈ sch ∧
    e.layout.length = 3 := ⟨fixture, ⟨0x12, [⟨0x01, ⟨0, 1⟩⟩, ⟨0x02, ⟨1, 3⟩⟩, ⟨0x05, ⟨5, 3⟩⟩]⟩, by decide, by decide, rfl⟩

theorem witness_WidthsFit : ∃ l : RegisterLayout, (∀ f ∈ l, f.desc.valid = true) ∧
    (l.Pairwise fun f g => f.desc.overlaps g.desc = false) ∧ l.length = 4 :=
  ⟨[⟨1, ⟨0, 3⟩⟩, ⟨2, ⟨3, 2⟩⟩, ⟨3, ⟨5, 2⟩⟩, ⟨4, ⟨7, 1⟩⟩], by decide, by decide, rfl⟩

theorem witness_LeftPadding : ∃ (str : BitString) (w : Nat), str.wellFormed = true ∧ str.len ≤ w :=
  ⟨⟨2, 3⟩, 2, by decide, by decide⟩

theorem witness_DatasheetBits : ∃ hi lo : Nat, lo ≤ hi ∧ hi ≤ 7 := ⟨7, 0, by decide, by decide⟩

theorem witness_ReadAfterWrite : ∃ (s : State) (a v : Byte) (rest : List HostAction), a.toNat ≤ 0x2E ∧
    s.env.agenda = .writeByte (.int a.toNat) v :: .readByte (.int a.toNat) :: rest :=
  ⟨fx [.writeByte (.int 0x2E) 0xAD, .readByte (.int 0x2E)], 0x2E, 0xAD, [], by decide, rfl⟩

theorem witness_AddressesResolve_name : ∃ (names : NameTable) (x : String) (a : Byte),
    (names.map Prod.fst).Nodup ∧ (x, a) ∈ names := ⟨[("PATABLE", 0x3E)], "PATABLE", 0x3E, by decide, by decide⟩

theorem witness_AddressesResolve_bounds : ∃ m n : Nat, m = 0 ∧ m ≤ 255 ∧ n = 255 ∧ n ≤ 255 :=
  ⟨0, 255, rfl, by decide, rfl, by decide⟩

theorem witness_AddressesResolve_outside : ∃ m n : Int, (m < 0 ∨ 255 < m) ∧ (n < 0 ∨ 255 < n) ∧ m = -1 ∧ n = 256 :=
  ⟨-1, 256, by decide, by decide, rfl, rfl⟩

theorem witness_AddressesResolve_absentName : ∃ (names : NameTable) (x : String), x ∉ names.map Prod.fst ∧ names ≠ [] :=
  ⟨[("PATABLE", 0x3E)], "FIFO", by decide, by decide⟩

theorem witness_AddressesResolve_reported : ∃ (s : State) (ref : HostRef) (f : HostFault) (act : HostAction)
    (rest : List HostAction), resolveAddress s.env.names ref = .error f ∧
    act ∈ [.readByte ref, .writeByte ref 0, .strobe ref, .readBurst ref 1, .writeBurst ref []] ∧
    s.env.agenda = act :: rest :=
  ⟨fx [.strobe (.name "SRES")], .name "SRES", .unknownName, _, [], by rfl, List.mem_of_elem_eq_true (by decide), rfl⟩

theorem witness_BusFrames_strobe : ∃ (s : State) (a b : Byte) (rest : List HostAction), inClass a ∧ isStrobe b ∧
    s.env.agenda = .strobe (.int a.toNat) :: rest :=
  ⟨fx [.strobe (.int 0xFD)], 0xFD, 0x3D, [], by decide, by decide, rfl⟩

theorem witness_BusFrames_readBurst : ∃ (s : State) (a : Byte) (n : Nat) (rest : List HostAction),
    a.toNat + 8 * n ≤ 0x107 ∧ inClass a ∧ s.env.agenda = .readBurst (.int a.toNat) n :: rest :=
  ⟨fx [.readBurst (.int 0x3F) 25], 0x3F, 25, [], by decide, by decide, rfl⟩

theorem witness_BusFrames_writeBurst : ∃ (s : State) (a : Byte) (data : List Byte) (rest : List HostAction),
    inClass a ∧ s.env.agenda = .writeBurst (.int a.toNat) data :: rest :=
  ⟨fx [.writeBurst (.int 0x2E) [2, 3]], 0x2E, [2, 3], [], by decide, rfl⟩

theorem witness_ReadFieldMacro : ∃ (s : State) (rk fk b : Byte) (rest : List HostAction) (more : List Byte),
    inClass rk ∧ ¬ isStrobe rk ∧ s.env.agenda = .rdf rk fk :: rest ∧ 0xF0 ≤ rk.toNat ∧ s.env.incoming = b :: more :=
  ⟨chipState [.rdf 0xFD 0x01], 0xFD, 0x01, 0x2D, [], [], by decide, by decide, rfl, by decide, rfl⟩

theorem witness_ReadFieldMacro_configuration : ∃ (s t : State) (rk fk : Byte) (rest : List HostAction),
    inClass rk ∧ rk.toNat ≤ 0x2E ∧ s.env.agenda = .rdf rk fk :: rest ∧ exec (.xfr rk fk 0xB5) s = .next t ∧
    t.rsp.status = 0x00 := ⟨chipState [.rdf 0x08 0x02], _, 0x08, 0x02, [], by decide, by decide, rfl, rfl, by decide⟩

theorem witness_WriteFieldMacro : ∃ (s : State) (v : Byte) (rest : List HostAction), s.schema.wf = true ∧
    (0x08 : Byte).toNat ≤ 0x2E ∧ Holds s.schema 0x08 0x02 ⟨3, 2⟩ ∧ v.toNat < 2 ^ 2 ∧
    s.env.agenda = .wrf 0x08 0x02 v :: rest :=
  ⟨chipState [.wrf 0x08 0x02 3], 3, [], by decide, by decide, holds_mid2, by decide, rfl⟩

theorem witness_WriteFieldMacro_string : ∃ (s : State) (v : Byte) (vlen : Nibble) (rest : List HostAction),
    s.schema.wf = true ∧ (0x08 : Byte).toNat ≤ 0x2E ∧ Holds s.schema 0x08 0x02 ⟨3, 2⟩ ∧
    s.env.agenda = .wrfb 0x08 0x02 vlen v :: rest ∧ 1 ≤ vlen.toNat ∧ vlen.toNat ≤ 2 ∧ v.toNat < 2 ^ vlen.toNat :=
  ⟨chipState [.wrfb 0x08 0x02 2 3], 3, 2, [], by decide, by decide, holds_mid2, rfl, by decide, by decide, by decide⟩

theorem witness_WriteFieldMacro_fault : ∃ (s t : State) (rest : List HostAction), inClass 0x08 ∧ ¬ isStrobe 0x08 ∧
    s.env.agenda = .wrf 0x08 0x02 4 :: rest ∧ core.run 3 s = .next t ∧ t.rsp.status ≠ 0x00 :=
  ⟨chipState [.wrf 0x08 0x02 4], _, [], by decide, by decide, rfl, rfl, by decide⟩

theorem witness_WriteFieldMacro_stringFault : ∃ (s t : State) (rest : List HostAction), inClass 0x08 ∧
    s.env.agenda = .wrfb 0x08 0x02 3 0 :: rest ∧ core.run 3 s = .next t ∧ t.rsp.status = 0x02 :=
  ⟨chipState [.wrfb 0x08 0x02 3 0], _, [], by decide, rfl, rfl, by decide⟩

/-- The wanted value is not what the chip returns at first, so the loop takes a turn and more. -/
theorem witness_PollingIsBounded : ∃ (s t : State) (rk fk want : Byte) (bound : Nat) (rest : List HostAction),
    inClass rk ∧ ¬ isStrobe rk ∧ s.env.agenda = .poll rk fk want bound :: rest ∧ bound = 2 ∧
    core.run 5 s = .next t ∧ t.env.agenda = .poll rk fk want 1 :: rest :=
  ⟨chipState [.poll 0xF5 0x01 0x01 2], _, 0xF5, 0x01, 0x01, 2, [], by decide, by decide, rfl, rfl, rfl, rfl⟩

theorem witness_PollingIsBounded_found : ∃ (s t : State) (rest : List HostAction),
    s.env.agenda = .poll 0xF5 0x01 0x0D 1 :: rest ∧ core.run 5 s = .next t ∧ t.rsp.result = 0x0D ∧
    t.env.agenda = rest := ⟨chipState [.poll 0xF5 0x01 0x0D 1], _, [], rfl, rfl, by decide, rfl⟩

/-- Both turns of the bound are taken, then Timeout is reported; the address is a strobe's, whose bytes the host is given. -/
theorem witness_PollingTimesOut : ∃ (s t : State) (rest : List HostAction), inClass 0x30 ∧
    s.env.agenda = .poll 0x30 0x01 0x01 2 :: rest ∧ core.run 11 s = .next t ∧ t.env.reported = some .timeout ∧
    t.env.agenda = rest :=
  ⟨{ chipState [.poll 0x30 0x01 0x01 2] with
      schema := [⟨0x30, [⟨0x01, ⟨3, 5⟩⟩]⟩],
      env := { (chipState [.poll 0x30 0x01 0x01 2]).env with incoming := [0x2D, 0x2D] } },
    _, [], by decide, rfl, rfl, by decide, rfl⟩

theorem witness_PollingTimesOut_noTurn : ∃ (s t : State) (rest : List HostAction), inClass 0xF5 ∧
    s.env.agenda = .poll 0xF5 0x01 0x01 0 :: rest ∧ core.run 1 s = .next t ∧ t.env.reported = some .timeout :=
  ⟨chipState [.poll 0xF5 0x01 0x01 0], _, [], by decide, rfl, rfl, by decide⟩

theorem witness_ByteAccesses_read : ∃ (s : State) (a : Byte) (rest : List HostAction), inClass a ∧ ¬ isStrobe a ∧
    s.env.agenda = .readByte (.int a.toNat) :: rest :=
  ⟨fx [.readByte (.int 0x3E)], 0x3E, [], by decide, by decide, rfl⟩

theorem witness_ByteAccesses_write : ∃ (s : State) (a v : Byte) (rest : List HostAction), inClass a ∧ ¬ isStrobe a ∧
    s.env.agenda = .writeByte (.int a.toNat) v :: rest :=
  ⟨fx [.writeByte (.int 0x2E) 1], 0x2E, 1, [], by decide, by decide, rfl⟩

theorem witness_NoClass_refused : ∃ (s : State) (a : Byte) (rest : List HostAction), ¬ inClass a ∧
    s.env.agenda = .readByte (.int a.toNat) :: rest := ⟨fx [.readByte (.int 0x2F)], 0x2F, [], by decide, rfl⟩

theorem witness_NoClass_top : ∃ (s : State) (a : Byte) (rest : List HostAction), ¬ inClass a ∧
    s.env.agenda = .strobe (.int a.toNat) :: rest := ⟨fx [.strobe (.int 0xFE)], 0xFE, [], by decide, rfl⟩

theorem witness_NoClass_runs : ∃ (s : State) (a : Byte) (rest : List HostAction), inClass a ∧
    s.env.agenda = .writeBack a :: rest := ⟨fx [.writeBack 0xF0], 0xF0, [], by decide, rfl⟩

theorem witness_WriteFieldMacroSteps : ∃ (s x : State) (rest : List HostAction), inClass 0xF5 ∧
    s.env.agenda = .wrf 0xF5 0x01 0x1F :: rest ∧ exec (.ifr 0xF5 0x01 0x2D 0x1F) s = .next x ∧ x.rsp.status = 0x00 :=
  ⟨chipState [.wrf 0xF5 0x01 0x1F], _, [], by decide, rfl, rfl, by decide⟩

theorem witness_WriteFieldMacroSteps_string : ∃ (s : State) (str : BitString) (rest : List HostAction),
    inClass 0x30 ∧ str.wellFormed = true ∧
    s.env.agenda = .wrfb 0x30 0x01 (BitVec.ofNat 4 str.len) str.bits :: rest :=
  ⟨chipState [.wrfb 0x30 0x01 8 0xFF], ⟨8, 0xFF⟩, [], by decide, by decide, rfl⟩

theorem witness_CommandByte : ∃ a b : Byte, a.toNat < 0x40 ∧ 0xF0 ≤ b.toNat ∧ b.toNat ≤ 0xFD :=
  ⟨0x3F, 0xF0, by decide, by decide, by decide⟩

end Sys2Proof.Tests
end

section
/-! PROOFS. 00_scope.md R4 and R5: a request step writes the response register, from the schema and the request word alone. -/

namespace Sys2Proof.Machine

/-- The response register that an operation's result or fault leaves (10_state.md R20, 60_exceptions.md R107). -/
def Rsp.ofAnswer : Except BlockFault Byte → Rsp
  | .ok r => Rsp.ok r
  | .error f => Rsp.ofFault f

/-- The frame of answering: only the response register is written, and what is written does not depend on the state. -/
theorem answer_eq_withRsp (s : State) (x : Except BlockFault Byte) : answer s x = s.withRsp (Rsp.ofAnswer x) := by
  cases x with
  | ok r => rfl
  | error f => rfl

/-- A request step takes the request from the agenda and writes the response register; nothing else changes. -/
theorem step_request_withRsp {s : State} {w : Request} {rest : List HostAction}
    (h : s.env.agenda = .request w :: rest) :
    step s = .next ((s.withAgenda rest).withRsp (Rsp.ofAnswer (answerTo s.schema w))) := by
  rw [step_request h, answer_eq_withRsp]

/-- The response register after a request step, as a function of the schema and the request word. -/
theorem rsp_of_step_request {s t : State} {w : Request} {rest : List HostAction}
    (h : s.env.agenda = .request w :: rest) (hstep : step s = .next t) :
    t.rsp = Rsp.ofAnswer (answerTo s.schema w) := by
  rw [step_request_withRsp h] at hstep
  cases hstep
  rfl

/-- Settles O2: with nothing to do the step is idle, and the response to a request is `answerTo` of the schema and the
word, written by a step whose frame is `step_request_withRsp`. -/
theorem oneStepPerRequestWritesOnlyTheResponse : Obligations.OneStepPerRequestWritesOnlyTheResponse :=
  ⟨fun _ hidle => step_idle hidle,
    fun sch w => Rsp.ofAnswer (answerTo sch w), fun _ _ _ hreq => step_request_withRsp hreq⟩

/-- Settles O28: both responses are the same function of the schema and the request word, and the schemas agree. -/
theorem answerDependsOnlyOnRequestAndSchema : Obligations.AnswerDependsOnlyOnRequestAndSchema := by
  intro s u s' u' w rest rest' hs hu hschema hs' hu'
  calc s'.rsp = Rsp.ofAnswer (answerTo s.schema w) := rsp_of_step_request hs hs'
    _ = Rsp.ofAnswer (answerTo u.schema w) := by rw [hschema]
    _ = u'.rsp := (rsp_of_step_request hu hu').symm

end Sys2Proof.Machine
end

section
/-! PROOFS. 10_state.md R12 and R15: the quantities of a descriptor, its positioned mask bit by bit, and overlap as
intersection of intervals. -/

namespace Sys2Proof

/-! ## The mask and the positioned mask -/

theorem FieldDesc.mask_eq (fd : FieldDesc) : fd.mask = 2 ^ fd.width - 1 := by
  rw [FieldDesc.mask, Nat.one_shiftLeft]

theorem FieldDesc.pmask_eq (fd : FieldDesc) : fd.pmask = fd.mask * 2 ^ fd.shift := by
  rw [FieldDesc.pmask, Nat.shiftLeft_eq]

/-- The positioned mask has ones at the positions `shift` to `shift + width - 1`, and nowhere else. -/
theorem FieldDesc.testBit_pmask (fd : FieldDesc) (n : Nat) :
    fd.pmask.testBit n = true ↔ fd.shift ≤ n ∧ n < fd.shift + fd.width := by
  rw [FieldDesc.pmask, FieldDesc.mask_eq, Nat.testBit_shiftLeft, Nat.testBit_two_pow_sub_one]
  simp only [Bool.and_eq_true, decide_eq_true_eq]
  omega

theorem FieldDesc.mask_mem_of_valid {fd : FieldDesc} (h : fd.valid = true) :
    fd.mask ∈ [0x01, 0x03, 0x07, 0x0F, 0x1F, 0x3F, 0x7F, 0xFF] := by
  obtain ⟨-, hmax, hmin, -⟩ := FieldDesc.valid_bounds h
  rw [FieldDesc.mask_eq]
  generalize fd.width = w at hmax hmin
  interval_cases w <;> decide

theorem FieldDesc.pmask_le_of_valid {fd : FieldDesc} (h : fd.valid = true) : fd.pmask ≤ 0xFF := by
  obtain ⟨-, -, -, hsum⟩ := FieldDesc.valid_bounds h
  have hlt : fd.pmask < 2 ^ 8 := calc
    fd.pmask = fd.mask * 2 ^ fd.shift := fd.pmask_eq
    _ < 2 ^ fd.width * 2 ^ fd.shift := Nat.mul_lt_mul_of_pos_right fd.mask_lt (Nat.two_pow_pos _)
    _ = 2 ^ (fd.width + fd.shift) := (Nat.pow_add 2 fd.width fd.shift).symm
    _ ≤ 2 ^ 8 := Nat.pow_le_pow_right (by decide) (by omega)
  omega

/-! ## Overlap -/

theorem FieldDesc.overlaps_iff_pmask (f g : FieldDesc) : f.overlaps g = true ↔ f.pmask &&& g.pmask ≠ 0 := by
  simp [FieldDesc.overlaps]

theorem FieldDesc.overlaps_iff_exists_testBit (f g : FieldDesc) :
    f.overlaps g = true ↔ ∃ n, f.pmask.testBit n = true ∧ g.pmask.testBit n = true := by
  rw [FieldDesc.overlaps_iff_pmask]
  constructor
  · intro h
    obtain ⟨n, hn⟩ := Nat.exists_testBit_of_ne_zero h
    exact ⟨n, by simpa using hn⟩
  · rintro ⟨n, hf, hg⟩ h
    have hn : (f.pmask &&& g.pmask).testBit n = true := by simp [hf, hg]
    simp [h] at hn

/-- The common bit of two valid descriptors whose intervals meet is the larger of their two shifts. -/
theorem FieldDesc.overlaps_iff_intervals_meet {f g : FieldDesc} (hf : f.valid = true) (hg : g.valid = true) :
    f.overlaps g = true ↔ f.index < g.index + g.width ∧ g.index < f.index + f.width := by
  obtain ⟨-, -, hfw, hfsum⟩ := FieldDesc.valid_bounds hf
  obtain ⟨-, -, hgw, hgsum⟩ := FieldDesc.valid_bounds hg
  simp only [FieldDesc.overlaps_iff_exists_testBit, FieldDesc.testBit_pmask]
  constructor
  · rintro ⟨n, hnf, hng⟩
    omega
  · intro hmeet
    exact ⟨max f.shift g.shift, by omega, by omega⟩

/-- The descriptors of one layout of a well-formed schema are valid and pairwise do not overlap (WF3 and WF4). -/
theorem Schema.layout_of_wf {sch : Schema} (hwf : sch.wf = true) {e : RegisterEntry} (he : e ∈ sch) :
    (∀ f ∈ e.layout, f.desc.valid = true) ∧ e.layout.Pairwise fun f g => f.desc.overlaps g.desc = false := by
  obtain ⟨-, hlayouts⟩ := (Schema.wf_iff sch).1 hwf
  obtain ⟨-, hvalid, hdisjoint, -⟩ := (RegisterLayout.wf_iff e.layout).1 (hlayouts e he)
  exact ⟨hvalid, hdisjoint⟩

/-- Settles O43: a common one-bit of the positioned masks is a position in both intervals, and WF4 says that a layout
has none. -/
theorem overlapIsIntervalIntersection : Obligations.OverlapIsIntervalIntersection := by
  refine ⟨fun f g hf hg => ⟨f.overlaps_iff_pmask g, FieldDesc.overlaps_iff_intervals_meet hf hg⟩, ?_⟩
  intro sch hwf e he
  obtain ⟨hvalid, hdisjoint⟩ := Schema.layout_of_wf hwf he
  refine hdisjoint.imp_of_mem fun {f g} hf hg hno => ⟨(f.desc.overlaps_eq_false_iff g.desc).1 hno, ?_⟩
  rw [← FieldDesc.overlaps_iff_intervals_meet (hvalid f hf) (hvalid g hg), hno]
  exact Bool.false_ne_true

/-- Settles O41: the ranges follow from `shift + width + index = 8`. -/
theorem descriptorQuantities : Obligations.DescriptorQuantities := by
  intro fd h
  obtain ⟨-, -, hpos, hsum⟩ := FieldDesc.valid_bounds h
  exact ⟨rfl, by omega, by omega, fd.mask_eq, FieldDesc.mask_mem_of_valid h, fd.pmask_eq,
    FieldDesc.pmask_le_of_valid h⟩

end Sys2Proof
end

section
/-! PROOFS. 10_state.md R17: no step changes the schema. -/

namespace Sys2Proof.Machine

@[simp] theorem answer_schema (s : State) (x : Except BlockFault Byte) : (answer s x).schema = s.schema := by
  rw [answer_eq_withRsp, State.withRsp_schema]

/-- Settles O29: an idle step keeps the whole state, a request and a reset write only the response register, and every
other action of the host leaves the block alone. -/
theorem schemaNeverChanges : Obligations.SchemaNeverChanges := by
  intro s t hstep
  rcases step_cases s with ⟨-, hidle⟩ | ⟨w, rest, -, hrequest⟩ | ⟨rest, -, hreset⟩ | hkeeps
  · cases hidle.symm.trans hstep
    rfl
  · cases hrequest.symm.trans hstep
    rw [answer_schema, State.withAgenda_schema]
  · cases hreset.symm.trans hstep
    rw [resetBlock_schema, State.withAgenda_schema]
  · obtain ⟨-, hschema, -⟩ := hkeeps t hstep
    exact hschema

end Sys2Proof.Machine
end

section
/-! PROOFS. 30_encoding.md R59: the bytes of a request and of a response, most significant first. -/

namespace Sys2Proof

/-- A slice of a word as a quotient of its number. -/
theorem extractLsb'_eq_ofNat {n : Nat} (w : BitVec n) (start len : Nat) :
    w.extractLsb' start len = BitVec.ofNat len (w.toNat / 2 ^ start) := by
  rw [← Nat.shiftRight_eq_div_pow]
  rfl

/-- The five bytes, appended in the order in which they are sent, are the word. -/
theorem append_bytes_eq (w : Request) : w.extractLsb' 32 8 ++ w.extractLsb' 24 8 ++ w.extractLsb' 16 8 ++
    w.extractLsb' 8 8 ++ w.extractLsb' 0 8 = w := by
  apply BitVec.eq_of_toNat_eq
  have := w.isLt
  simp only [toNat_append_eq, BitVec.extractLsb'_toNat, Nat.shiftRight_eq_div_pow]
  omega

@[simp] theorem requestOfBytes_requestBytes (w : Request) (rest : List Byte) :
    requestOfBytes (requestBytes w ++ rest) = some (w, rest) := by
  simp only [requestBytes, List.cons_append, List.nil_append, requestOfBytes, append_bytes_eq]

@[simp] theorem decodeBytes_requestBytes (w : Request) (rest : List Byte) :
    decodeBytes (requestBytes w ++ rest) = some (decode w, rest) := by
  simp only [decodeBytes, requestOfBytes_requestBytes]

theorem requestBytes_eq (w : Request) : requestBytes w =
    [BitVec.ofNat 8 (w.toNat / 2 ^ 32), BitVec.ofNat 8 (w.toNat / 2 ^ 24), BitVec.ofNat 8 (w.toNat / 2 ^ 16),
      BitVec.ofNat 8 (w.toNat / 2 ^ 8), BitVec.ofNat 8 w.toNat] := by
  simp only [requestBytes, extractLsb'_eq_ofNat, Nat.pow_zero, Nat.div_one]

theorem Machine.Rsp.word_toNat (r : Machine.Rsp) : r.word.toNat = r.status.toNat * 2 ^ 8 + r.result.toNat :=
  toNat_append_eq r.status r.result

theorem Machine.Rsp.bytes_eq (r : Machine.Rsp) :
    r.bytes = [BitVec.ofNat 8 (r.word.toNat / 2 ^ 8), BitVec.ofNat 8 r.word.toNat] := by
  have hstatus : BitVec.ofNat 8 (r.word.toNat / 2 ^ 8) = r.status := by
    rw [Machine.Rsp.word_toNat]
    bv_omega
  have hresult : BitVec.ofNat 8 r.word.toNat = r.result := by
    rw [Machine.Rsp.word_toNat]
    bv_omega
  rw [hstatus, hresult, Machine.Rsp.bytes]

/-- Settles O9: the bytes are slices of the word at multiples of eight bits, and appending them gives the word back. -/
theorem wireFormIsMostSignificantByteFirst : Obligations.WireFormIsMostSignificantByteFirst :=
  ⟨fun w rest => ⟨requestBytes_eq w, requestOfBytes_requestBytes w rest, decodeBytes_requestBytes w rest⟩,
    Machine.Rsp.bytes_eq⟩

end Sys2Proof
end

section
/-! PROOFS. 30_encoding.md R54: the opcode map row by row, and that the decoder accepts exactly its words. -/

namespace Sys2Proof

open Laws.EncodeFills (Fills)

/-! ## The rows of the map -/

/-- The row of the opcode map an instruction belongs to. -/
def Instr.row : Instr → OpcodeRow
  | .ext _ _      => opcodeTable[0]
  | .ins _ _ _    => opcodeTable[1]
  | .insb _ _ _   => opcodeTable[2]
  | .lay _        => opcodeTable[3]
  | .fld _ _      => opcodeTable[4]
  | .xfr _ _ _    => opcodeTable[5]
  | .ifr _ _ _ _  => opcodeTable[6]
  | .ifrb _ _ _ _ => opcodeTable[7]

theorem Instr.row_mem (i : Instr) : i.row ∈ opcodeTable := by
  cases i <;> exact List.getElem_mem _

theorem Instr.row_mnemonic (i : Instr) : i.row.mnemonic = i.mnemonic := by
  cases i <;> rfl

theorem exists_instr_of_mem_opcodeTable {row : OpcodeRow} (h : row ∈ opcodeTable) : ∃ i : Instr, i.row = row := by
  simp only [opcodeTable, List.mem_cons, List.not_mem_nil, or_false] at h
  rcases h with rfl | rfl | rfl | rfl | rfl | rfl | rfl | rfl
  · exact ⟨.ext ⟨0, 0⟩ 0, rfl⟩
  · exact ⟨.ins ⟨0, 0⟩ 0 0, rfl⟩
  · exact ⟨.insb ⟨0, 0⟩ 0 ⟨0, 0⟩, rfl⟩
  · exact ⟨.lay 0, rfl⟩
  · exact ⟨.fld 0 0, rfl⟩
  · exact ⟨.xfr 0 0 0, rfl⟩
  · exact ⟨.ifr 0 0 0 0, rfl⟩
  · exact ⟨.ifrb 0 0 0 ⟨0, 0⟩, rfl⟩

/-- Every row masks in the whole operation code, and no two rows have the same one. -/
theorem opcodeTable_opcode : (∀ r ∈ opcodeTable, r.mask &&& 0xF000000000 = 0xF000000000) ∧
    ∀ r ∈ opcodeTable, ∀ q ∈ opcodeTable, r.pattern &&& 0xF000000000 = q.pattern &&& 0xF000000000 → r = q := by
  decide

/-- A word that matches a row has the row's operation code. -/
theorem opcode_of_matches {w : Request} {r : OpcodeRow} (hr : r ∈ opcodeTable) (h : w &&& r.mask = r.pattern) :
    w &&& 0xF000000000 = r.pattern &&& 0xF000000000 := by
  rw [← h, BitVec.and_assoc, opcodeTable_opcode.1 r hr]

theorem row_eq_of_matches {w : Request} {r q : OpcodeRow} (hr : r ∈ opcodeTable) (hq : q ∈ opcodeTable)
    (hwr : w &&& r.mask = r.pattern) (hwq : w &&& q.mask = q.pattern) : r = q :=
  opcodeTable_opcode.2 r hr q hq ((opcode_of_matches hr hwr).symm.trans (opcode_of_matches hq hwq))

/-! ## Matching a row, field by field -/

theorem unpackRequest_injective : Function.Injective unpackRequest :=
  Function.LeftInverse.injective pack_unpack

/-- The bitwise and of two words is the bitwise and of their fields. -/
theorem unpackRequest_and (w v : Request) : unpackRequest (w &&& v) =
    ⟨(unpackRequest w).op &&& (unpackRequest v).op, (unpackRequest w).vlen &&& (unpackRequest v).vlen,
      (unpackRequest w).a &&& (unpackRequest v).a, (unpackRequest w).b &&& (unpackRequest v).b,
      (unpackRequest w).data &&& (unpackRequest v).data, (unpackRequest w).val &&& (unpackRequest v).val⟩ := by
  simp only [unpackRequest, BitVec.extractLsb'_and]

/-- A word matches an instruction's row exactly when it carries the operation code and zero in every unused field. -/
theorem matches_row_iff (i : Instr) (w : Request) :
    w &&& i.row.mask = i.row.pattern ↔ Fills i (unpackRequest w) := by
  have hnib (x : Nibble) : x &&& 15#4 = x := BitVec.and_allOnes
  have hbyte (x : Byte) : x &&& 255#8 = x := BitVec.and_allOnes
  rw [← unpackRequest_injective.eq_iff, unpackRequest_and]
  generalize unpackRequest w = f
  cases i <;> simp only [Instr.row, opcodeTable, List.getElem_cons_zero, List.getElem_cons_succ] <;>
    simp [unpackRequest, Fills, hnib, hbyte]

/-! ## The decoder and the rows -/

/-- The fields meet all that 30_encoding.md R54 asks of the instruction's row: its operation code, zero in the unused
fields and, in the bit-string forms, a well-formed string. -/
def Instr.Admits (i : Instr) (f : RequestFields) : Prop :=
  Fills i f ∧ (i.row.stringForm = true → (BitString.mk f.vlen.toNat f.val).wellFormed = true)

theorem accepts_row_iff (i : Instr) (w : Request) : i.row.accepts w = true ↔ i.Admits (unpackRequest w) := by
  simp only [OpcodeRow.accepts, Instr.Admits, Bool.and_eq_true, Bool.or_eq_true, Bool.not_eq_true', decide_eq_true_eq,
    matches_row_iff, imp_iff_not_or, Bool.not_eq_true]

/-- The string check passes exactly the well-formed strings, as presented. -/
theorem decodeBitString_eq_ok_iff (vlen : Nibble) (val : Byte) (str : BitString) : decodeBitString vlen val = .ok str ↔
    (BitString.mk vlen.toNat val).wellFormed = true ∧ str = ⟨vlen.toNat, val⟩ := by
  rcases decodeBitString_cases vlen val with ⟨hwf, h⟩ | ⟨hwf, r, h⟩
  · simp [h, hwf, eq_comm]
  · simp [h, hwf]

/-- An instruction comes only from fields its row admits. -/
theorem admits_of_decodeFields {f : RequestFields} {i : Instr} (h : decodeFields f = .ok i) : i.Admits f := by
  unfold decodeFields at h
  split at h
  case h_3 hop =>
    split at h
    case isTrue hb =>
      split at h <;> cases h
      case h_1 hstr => exact ⟨⟨BitVec.eq_of_toNat_eq hop, hb⟩, fun _ => ((decodeBitString_eq_ok_iff ..).1 hstr).1⟩
    case isFalse => cases h
  case h_8 hop =>
    split at h <;> cases h
    case h_1 hstr => exact ⟨BitVec.eq_of_toNat_eq hop, fun _ => ((decodeBitString_eq_ok_iff ..).1 hstr).1⟩
  case h_9 => cases h
  all_goals
    rename_i hop
    split at h <;> cases h
    next hunused => exact ⟨⟨BitVec.eq_of_toNat_eq hop, hunused⟩, nofun⟩

/-- Fields that some row admits are decoded. -/
theorem exists_decodeFields_of_admits {f : RequestFields} {i : Instr} (h : i.Admits f) :
    ∃ j, decodeFields f = .ok j := by
  obtain ⟨hfills, hstr⟩ := h
  cases i with
  | insb =>
    obtain ⟨hop, hb⟩ := hfills
    refine ⟨.insb (fdOfByte f.a) f.data ⟨f.vlen.toNat, f.val⟩, ?_⟩
    simp [decodeFields, hop, hb, (decodeBitString_eq_ok_iff ..).2 ⟨hstr rfl, rfl⟩]
  | ifrb =>
    have hop : f.op = 8 := hfills
    refine ⟨.ifrb f.a f.b f.data ⟨f.vlen.toNat, f.val⟩, ?_⟩
    simp [decodeFields, hop, (decodeBitString_eq_ok_iff ..).2 ⟨hstr rfl, rfl⟩]
  | _ =>
    obtain ⟨hop, hunused⟩ := hfills
    simp only [decodeFields, hop]
    exact ⟨_, if_pos hunused⟩

theorem accepts_row_of_decode {w : Request} {i : Instr} (h : decode w = .ok i) : i.row.accepts w = true :=
  (accepts_row_iff i w).2 (admits_of_decodeFields h)

/-- Settles O5: a decoded word is accepted by its instruction's own row, an accepted word is decoded, and a word matches
no other row since a row's operation code is its own. -/
theorem decoderAcceptsExactlyTheOpcodeMap : Obligations.DecoderAcceptsExactlyTheOpcodeMap := by
  refine ⟨fun w => ⟨fun ⟨i, hi⟩ => ⟨i.row, i.row_mem, accepts_row_of_decode hi⟩, ?_⟩, ?_, ?_⟩
  · rintro ⟨row, hrow, haccepts⟩
    obtain ⟨i, rfl⟩ := exists_instr_of_mem_opcodeTable hrow
    exact exists_decodeFields_of_admits ((accepts_row_iff i w).1 haccepts)
  · intro w i row hi hrow hmatch
    have hown : w &&& i.row.mask = i.row.pattern := (matches_row_iff i w).2 (admits_of_decodeFields hi).1
    rw [row_eq_of_matches hrow i.row_mem hmatch hown, i.row_mnemonic]
  · exact fun _ _ _ hr hq => row_eq_of_matches hr hq

end Sys2Proof
end

section
/-! PROOFS. 30_encoding.md R57, 60_exceptions.md R105: exactly the illegal words are answered with IllegalRequest. -/

namespace Sys2Proof

/-- A string fails exactly as 30_encoding.md R57 lists it. -/
theorem BitString.wellFormed_eq_false_iff (str : BitString) : str.wellFormed = false ↔
    str.len = 0 ∨ 8 < str.len ∨ 2 ^ str.len ≤ str.bits.toNat := by
  have hstray : str.bits.toNat >>> str.len = 0 ↔ str.bits.toNat < 2 ^ str.len := by
    rw [Nat.shiftRight_eq_div_pow, Nat.div_eq_zero_iff_lt (Nat.two_pow_pos _)]
  simp only [BitString.wellFormed, hstray, Bool.and_eq_false_iff, decide_eq_false_iff_not]
  omega

/-- The check of the unused fields fails exactly when one of them is not zero. -/
theorem exists_ite_eq_error_iff {c : Prop} [Decidable c] (i : Instr) (e : IllegalReason) :
    (∃ r, (if c then Except.ok i else Except.error e) = Except.error r) ↔ ¬ c := by
  split <;> simp [*]

namespace Reference

/-! ## The fields by division are the decoder's fields -/

theorem op_toNat (w : Request) : op w.toNat = (unpackRequest w).op.toNat := by
  have := w.isLt
  simp only [op, unpackRequest, BitVec.extractLsb'_toNat, Nat.shiftRight_eq_div_pow]
  omega

theorem vlen_toNat (w : Request) : vlen w.toNat = (unpackRequest w).vlen.toNat := by
  simp only [vlen, unpackRequest, BitVec.extractLsb'_toNat, Nat.shiftRight_eq_div_pow]

theorem fieldB_toNat (w : Request) : fieldB w.toNat = (unpackRequest w).b.toNat := by
  simp only [fieldB, unpackRequest, BitVec.extractLsb'_toNat, Nat.shiftRight_eq_div_pow]

theorem data_toNat (w : Request) : data w.toNat = (unpackRequest w).data.toNat := by
  simp only [data, unpackRequest, BitVec.extractLsb'_toNat, Nat.shiftRight_eq_div_pow]

theorem val_toNat (w : Request) : val w.toNat = (unpackRequest w).val.toNat := by
  simp only [val, unpackRequest, BitVec.extractLsb'_toNat, Nat.shiftRight_zero]

/-! ## Legality on the number -/

theorem badString_iff_decodeBitString (w : Request) : badString w.toNat = true ↔
    ∃ r, decodeBitString (unpackRequest w).vlen (unpackRequest w).val = .error r := by
  have hbad : badString w.toNat = true ↔
      (BitString.mk (unpackRequest w).vlen.toNat (unpackRequest w).val).wellFormed = false := by
    rw [BitString.wellFormed_eq_false_iff]
    simp only [badString, vlen_toNat, val_toNat, Bool.or_eq_true, decide_eq_true_eq, or_assoc]
  rw [hbad]
  rcases decodeBitString_cases (unpackRequest w).vlen (unpackRequest w).val with ⟨hwf, h⟩ | ⟨hwf, r, h⟩
  · simp [h, hwf]
  · simp [h, hwf]

/-- The words listed in 30_encoding.md R57 are the ones the decoder gives no instruction for. -/
theorem illegal_iff_decode_eq_error (w : Request) : illegal w.toNat = true ↔ ∃ r, decode w = .error r := by
  have hbad := badString_iff_decodeBitString w
  have hzero {n : Nat} (x : BitVec n) : x.toNat = 0 ↔ x = 0 := by simp [BitVec.toNat_eq]
  rw [illegal, decode, op_toNat, vlen_toNat, fieldB_toNat, data_toNat, val_toNat]
  split
  case h_3 hop =>
    simp only [decodeFields, hop, Bool.or_eq_true, decide_eq_true_eq, ne_eq, hbad, hzero]
    by_cases hb : (unpackRequest w).b = 0
    · rw [if_pos hb]
      cases decodeBitString (unpackRequest w).vlen (unpackRequest w).val <;> simp [hb]
    · exact iff_of_true (.inl hb) ⟨.unusedFieldNotZero, if_neg hb⟩
  case h_8 hop =>
    simp only [decodeFields, hop, hbad]
    cases decodeBitString (unpackRequest w).vlen (unpackRequest w).val <;> simp
  case h_9 =>
    unfold decodeFields
    split
    case h_9 => exact iff_of_true rfl ⟨.reservedOpcode, rfl⟩
    all_goals contradiction
  all_goals
    rename_i hop
    simp only [decodeFields, hop, exists_ite_eq_error_iff, Bool.or_eq_true, decide_eq_true_eq, ne_eq, hzero,
      not_and_or, or_assoc]

end Reference

end Sys2Proof

namespace Sys2Proof.Machine

/-! ## The answer to a legal word -/

theorem Rsp.ofAnswer_status_eq_code_iff (x : Except BlockFault Byte) (f : BlockFault) :
    (Rsp.ofAnswer x).status = f.code ↔ x = .error f := by
  cases x with
  | ok r => simpa [Rsp.ofAnswer] using f.code_ne_ok.symm
  | error g => simpa [Rsp.ofAnswer] using ⟨BlockFault.code_injective g f, congrArg _⟩

theorem extractField_ne_illegalRequest (data : Byte) (fd : FieldDesc) :
    extractField data fd ≠ .error .illegalRequest := by
  rcases extractField_cases data fd with ⟨-, h⟩ | ⟨-, h⟩ <;> simp [h]

theorem insertNumeric_ne_illegalRequest (data : Byte) (fd : FieldDesc) (val : Byte) :
    insertNumeric data fd val ≠ .error .illegalRequest := by
  rcases insertNumeric_cases data fd val with ⟨-, h⟩ | ⟨-, h⟩ <;> simp [h]

theorem insertString_ne_illegalRequest (data : Byte) (fd : FieldDesc) (str : BitString) :
    insertString data fd str ≠ .error .illegalRequest := by
  rcases insertString_cases data fd str with ⟨-, h⟩ | ⟨-, h⟩ <;> simp [h]

/-- The lookups fault with UnknownRegister or UnknownField only, so what uses the found field decides. -/
theorem fieldIn_bind_ne_illegalRequest (sch : Schema) (rk fk : Byte) {use : FieldDesc → Except BlockFault Byte}
    (huse : ∀ fd, use fd ≠ .error .illegalRequest) : (fieldIn sch rk fk).bind use ≠ .error .illegalRequest := by
  rcases fieldIn_cases sch rk fk with ⟨_, -, -, f, -, -, h⟩ | ⟨_, -, -, -, -, h⟩ | ⟨-, h⟩
  · simpa [h, Except.bind] using huse f.desc
  · simp [h, Except.bind]
  · simp [h, Except.bind]

theorem fieldIn_map_ne_illegalRequest (sch : Schema) (rk fk : Byte) (use : FieldDesc → Byte) :
    (fieldIn sch rk fk).map use ≠ .error .illegalRequest := by
  have hbind : (fieldIn sch rk fk).map use = (fieldIn sch rk fk).bind fun fd => .ok (use fd) := by
    cases fieldIn sch rk fk <;> rfl
  rw [hbind]
  exact fieldIn_bind_ne_illegalRequest sch rk fk fun _ => nofun

/-- No operation reports IllegalRequest: only the decoder does (60_exceptions.md R105). -/
theorem answerOf_ne_illegalRequest (sch : Schema) (i : Instr) : answerOf sch i ≠ .error .illegalRequest := by
  cases i with
  | ext fd data => exact extractField_ne_illegalRequest data fd
  | ins fd data val =>
    rw [answerOf]
    split
    · exact insertNumeric_ne_illegalRequest data fd val
    · nofun
  | insb fd data str =>
    rw [answerOf]
    split
    · exact insertString_ne_illegalRequest data fd str
    · nofun
  | lay rk =>
    rw [answerOf]
    rcases layoutFor_cases sch rk with ⟨_, -, -, h⟩ | ⟨-, h⟩ <;> simp [h, Except.map]
  | fld rk fk => exact fieldIn_map_ne_illegalRequest sch rk fk _
  | xfr rk fk data => exact fieldIn_map_ne_illegalRequest sch rk fk _
  | ifr rk fk data val =>
    exact fieldIn_bind_ne_illegalRequest sch rk fk fun fd => insertNumeric_ne_illegalRequest data fd val
  | ifrb rk fk data str =>
    exact fieldIn_bind_ne_illegalRequest sch rk fk fun fd => insertString_ne_illegalRequest data fd str

theorem answerTo_eq_illegalRequest_iff (sch : Schema) (w : Request) :
    answerTo sch w = .error .illegalRequest ↔ Reference.illegal w.toNat = true := by
  rw [Reference.illegal_iff_decode_eq_error, answerTo]
  cases decode w with
  | ok i => simpa using answerOf_ne_illegalRequest sch i
  | error r => simp

/-- Settles O4: a step answers IllegalRequest exactly when the word is illegal, and the code of no other answer is 0x0F. -/
theorem exactlyIllegalWordsAnswerIllegalRequest : Obligations.ExactlyIllegalWordsAnswerIllegalRequest := by
  intro s w rest hreq
  constructor
  · intro hillegal
    rw [step_request hreq, (answerTo_eq_illegalRequest_iff s.schema w).2 hillegal]
    rfl
  · intro hlegal t hstep hstatus
    rw [rsp_of_step_request hreq hstep] at hstatus
    have hanswer := (Rsp.ofAnswer_status_eq_code_iff _ .illegalRequest).1 hstatus
    rw [answerTo_eq_illegalRequest_iff, hlegal] at hanswer
    exact Bool.false_ne_true hanswer

end Sys2Proof.Machine
end

section
/-! PROOFS. 40_codec_direct.md R70, R74 and R75: the datapaths bit by bit, what EXT answers, inserting what was
extracted, and that a successful insert keeps every bit outside the field. -/

namespace Sys2Proof

/-! ## Masks and strings as the datapaths use them -/

theorem FieldDesc.getLsbD_ofNat_mask (fd : FieldDesc) (n : Nat) :
    (BitVec.ofNat 8 fd.mask).getLsbD n = (decide (n < 8) && decide (n < fd.width)) := by
  rw [BitVec.getLsbD_ofNat, FieldDesc.mask_eq, Nat.testBit_two_pow_sub_one]

theorem FieldDesc.getLsbD_ofNat_pmask (fd : FieldDesc) (n : Nat) : (BitVec.ofNat 8 fd.pmask).getLsbD n =
    (decide (n < 8) && decide (fd.shift ≤ n ∧ n < fd.shift + fd.width)) := by
  rw [BitVec.getLsbD_ofNat, Bool.eq_iff_iff]
  simp only [Bool.and_eq_true, decide_eq_true_eq, FieldDesc.testBit_pmask]

/-- A value passes the range check exactly when it has at most `w` binary digits. -/
theorem FieldDesc.le_mask_iff (fd : FieldDesc) (n : Nat) : n ≤ fd.mask ↔ n < 2 ^ fd.width := by
  rw [FieldDesc.mask_eq]
  exact Nat.le_sub_one_iff_lt (Nat.two_pow_pos _)

/-- A string's number has no digit beyond its length (30_encoding.md R56). -/
theorem BitString.bits_lt_of_wellFormed {str : BitString} (h : str.wellFormed = true) :
    str.bits.toNat < 2 ^ str.len := by
  rw [← Bool.not_eq_false, BitString.wellFormed_eq_false_iff] at h
  omega

/-- The field index `k` names the bit `7 - k` in value numbering (00_scope.md R3, 10_state.md R13). -/
theorem FieldDesc.covers_iff_of_valid {fd : FieldDesc} (h : fd.valid = true) {k : Nat} (hk : k < 8) :
    fd.covers k = true ↔ fd.shift ≤ 7 - k ∧ 7 - k < fd.shift + fd.width := by
  obtain ⟨-, -, -, hsum⟩ := FieldDesc.valid_bounds h
  simp only [FieldDesc.covers, Bool.and_eq_true, decide_eq_true_eq]
  omega

theorem fdOfByte_eq (a : Byte) : fdOfByte a = ⟨a.toNat / 16, a.toNat % 16⟩ := by
  have := a.isLt
  simp only [fdOfByte, BitVec.extractLsb'_toNat, Nat.shiftRight_eq_div_pow, FieldDesc.mk.injEq]
  omega

/-- The request word of EXT, as the number R50 and R53 give it, is the packed word. -/
theorem decode_ext_word (a byte : Byte) :
    decode (BitVec.ofNat 40 (1 * 2 ^ 36 + a.toNat * 2 ^ 24 + byte.toNat * 2 ^ 8)) =
      .ok (.ext ⟨a.toNat / 16, a.toNat % 16⟩ byte) := by
  have hword : BitVec.ofNat 40 (1 * 2 ^ 36 + a.toNat * 2 ^ 24 + byte.toNat * 2 ^ 8) =
      packRequest ⟨1, 0, a, 0, byte, 0⟩ := by
    apply BitVec.eq_of_toNat_eq
    rw [packRequest_toNat]
    bv_omega
  rw [hword, decode_packRequest, ← fdOfByte_eq]
  rfl

end Sys2Proof

namespace Sys2Proof.Machine

open Reference

/-! ## The datapaths -/

theorem extractBits_eq_ofNat (data : Byte) (fd : FieldDesc) :
    extractBits data fd = BitVec.ofNat 8 ((data.toNat >>> fd.shift) &&& fd.mask) := by
  rw [BitVec.ofNat_and, ← BitVec.toNat_ushiftRight, BitVec.ofNat_toNat, BitVec.setWidth_eq, extractBits]

theorem extractBits_le_mask (data : Byte) (fd : FieldDesc) : (extractBits data fd).toNat ≤ fd.mask := by
  rw [extractBits, BitVec.toNat_and]
  exact Nat.and_le_right.trans (BitVec.toNat_ofNat .. ▸ Nat.mod_le ..)

theorem getLsbD_extractBits (data : Byte) (fd : FieldDesc) (n : Nat) :
    (extractBits data fd).getLsbD n = (decide (n < fd.width) && data.getLsbD (n + fd.shift)) := by
  rw [extractBits, BitVec.getLsbD_and, BitVec.getLsbD_ushiftRight, FieldDesc.getLsbD_ofNat_mask, Nat.add_comm]
  by_cases hn : n < 8
  · simp [hn, Bool.and_comm]
  · simp [hn, BitVec.getLsbD_of_ge data (n + fd.shift) (by omega)]

/-- A fitting value goes to the field's positions, and the byte keeps the others. -/
theorem getLsbD_insertBits {fd : FieldDesc} {val : Byte} (hval : val.toNat < 2 ^ fd.width) (data : Byte) {n : Nat}
    (hn : n < 8) : (insertBits data fd val).getLsbD n =
      if fd.shift ≤ n ∧ n < fd.shift + fd.width then val.getLsbD (n - fd.shift) else data.getLsbD n := by
  have hmux : (insertBits data fd val).getLsbD n = (data.getLsbD n &&
      !decide (fd.shift ≤ n ∧ n < fd.shift + fd.width) || (!decide (n < fd.shift) && val.getLsbD (n - fd.shift))) := by
    simp only [insertBits, BitVec.getLsbD_or, BitVec.getLsbD_and, BitVec.getLsbD_not, BitVec.getLsbD_shiftLeft,
      FieldDesc.getLsbD_ofNat_pmask, hn, decide_true, Bool.true_and]
  rw [hmux]
  split
  next hfield => simp [hfield]
  next hout =>
    by_cases hbelow : n < fd.shift
    · simp [hout, hbelow]
    · have habove : val.getLsbD (n - fd.shift) = false :=
        Nat.testBit_lt_two_pow (hval.trans_le (Nat.pow_le_pow_right two_pos (by omega)))
      simp [hout, habove]

theorem insertBits_extractBits (data : Byte) (fd : FieldDesc) : insertBits data fd (extractBits data fd) = data := by
  have hval : (extractBits data fd).toNat < 2 ^ fd.width := (fd.le_mask_iff _).1 (extractBits_le_mask data fd)
  apply BitVec.eq_of_getLsbD_eq
  intro n hn
  rw [getLsbD_insertBits hval data hn]
  split
  next hfield =>
    have hwidth : n - fd.shift < fd.width := by omega
    rw [getLsbD_extractBits, decide_eq_true hwidth, Bool.true_and, Nat.sub_add_cancel hfield.1]
  next => rfl

/-! ## What each operation answers -/

theorem extractField_of_valid {fd : FieldDesc} (h : fd.valid = true) (data : Byte) :
    extractField data fd = .ok (extractBits data fd) := if_pos h

theorem exec_ext_of_valid {fd : FieldDesc} (h : fd.valid = true) (data : Byte) (s : State) :
    exec (.ext fd data) s = .next (withOk s (extractBits data fd)) := by
  rw [exec_eq, answerOf, extractField_of_valid h]
  rfl

theorem exec_ins_of_valid {fd : FieldDesc} (h : fd.valid = true) {val : Byte} (hval : val.toNat ≤ fd.mask)
    (data : Byte) (s : State) : exec (.ins fd data val) s = .next (withOk s (insertBits data fd val)) := by
  rw [exec_eq, answerOf, if_pos h, insertNumeric, if_neg hval.not_gt]
  rfl

/-- The descriptor a well-formed schema holds for two keys is the one the lookup finds, and it is valid (WF1 to WF3). -/
theorem fieldIn_of_holds {sch : Schema} (hwf : sch.wf = true) {rk fk : Byte} {fd : FieldDesc}
    (h : Holds sch rk fk fd) : fieldIn sch rk fk = .ok fd ∧ fd.valid = true := by
  obtain ⟨e, he, rfl, f, hf, rfl, rfl⟩ := h
  exact ⟨fieldIn_of_mem hwf he hf, (Schema.layout_of_wf hwf he).1 f hf⟩

/-- An operation that completes with status OK left its result in the response register. -/
theorem answerOf_eq_ok_of_exec {i : Instr} {s t : State} (h : exec i s = .next t) (hok : t.rsp.status = 0x00) :
    answerOf s.schema i = .ok t.rsp.result := by
  rw [exec_eq] at h
  cases h
  rcases answer_cases s (answerOf s.schema i) with ⟨r, hr, hanswer⟩ | ⟨f, -, hanswer⟩ <;> rw [hanswer] at hok ⊢
  · exact hr
  · exact absurd hok f.code_ne_ok

/-- `r` is the byte `data` with the valid field `fd` replaced by a value that fits it. -/
def IsInsert (data : Byte) (fd : FieldDesc) (r : Byte) : Prop :=
  fd.valid = true ∧ ∃ val : Byte, val.toNat < 2 ^ fd.width ∧ r = insertBits data fd val

theorem isInsert_of_insertNumeric {data : Byte} {fd : FieldDesc} {val r : Byte} (hvalid : fd.valid = true)
    (h : insertNumeric data fd val = .ok r) : IsInsert data fd r := by
  rcases insertNumeric_cases data fd val with ⟨hle, hok⟩ | ⟨-, herror⟩
  · cases hok.symm.trans h
    exact ⟨hvalid, val, (fd.le_mask_iff _).1 hle, rfl⟩
  · cases herror.symm.trans h

theorem isInsert_of_insertString {data : Byte} {fd : FieldDesc} {str : BitString} {r : Byte}
    (hvalid : fd.valid = true) (hstr : str.wellFormed = true) (h : insertString data fd str = .ok r) :
    IsInsert data fd r := by
  rcases insertString_cases data fd str with ⟨hle, hok⟩ | ⟨-, herror⟩
  · cases hok.symm.trans h
    exact ⟨hvalid, str.bits, (BitString.bits_lt_of_wellFormed hstr).trans_le (Nat.pow_le_pow_right two_pos hle), rfl⟩
  · cases herror.symm.trans h

/-- A direct form that answers OK had a valid descriptor. -/
theorem valid_of_ite_eq_ok {fd : FieldDesc} {x : Except BlockFault Byte} {r : Byte}
    (h : (if fd.valid then x else .error .invalidFieldSpec) = .ok r) : fd.valid = true ∧ x = .ok r := by
  split at h
  next hvalid => exact ⟨hvalid, h⟩
  next => cases h

/-- The bits outside the field, in value numbering, are the byte's. -/
theorem IsInsert.getLsbD_eq_of_outside {data r : Byte} {fd : FieldDesc} (h : IsInsert data fd r) {n : Nat} (hn : n < 8)
    (hout : ¬ (fd.shift ≤ n ∧ n < fd.shift + fd.width)) : r.getLsbD n = data.getLsbD n := by
  obtain ⟨-, val, hval, rfl⟩ := h
  rw [getLsbD_insertBits hval data hn, if_neg hout]

theorem IsInsert.and_not_pmask {data r : Byte} {fd : FieldDesc} (h : IsInsert data fd r) :
    r &&& ~~~BitVec.ofNat 8 fd.pmask = data &&& ~~~BitVec.ofNat 8 fd.pmask := by
  apply BitVec.eq_of_getLsbD_eq
  intro n hn
  simp only [BitVec.getLsbD_and, BitVec.getLsbD_not, FieldDesc.getLsbD_ofNat_pmask]
  by_cases hfield : fd.shift ≤ n ∧ n < fd.shift + fd.width
  · simp [hfield, hn]
  · rw [h.getLsbD_eq_of_outside hn hfield]

theorem IsInsert.getLsbD_of_covers_eq_false {data r : Byte} {fd : FieldDesc} (h : IsInsert data fd r) {k : Nat}
    (hk : k < 8) (hout : fd.covers k = false) : r.getLsbD (7 - k) = data.getLsbD (7 - k) := by
  refine h.getLsbD_eq_of_outside (by omega) ?_
  rw [← FieldDesc.covers_iff_of_valid h.1 hk, hout]
  exact Bool.false_ne_true

/-! ## The statements -/

/-- Settles O10: the operation's answer is a case split on the descriptor's validity, and its word packs the FD byte. -/
theorem extAnswersTheFieldRightAligned : Obligations.ExtAnswersTheFieldRightAligned := by
  refine ⟨fun i w byte s => ?_, decode_ext_word⟩
  rw [exec_eq, answerOf]
  rcases extractField_cases byte ⟨i, w⟩ with ⟨hvalid, hok⟩ | ⟨hvalid, herror⟩
  · rw [hok, if_pos ((FieldDesc.valid_iff _).1 hvalid), extractBits_eq_ofNat]
    rfl
  · rw [← Bool.not_eq_true, FieldDesc.valid_iff] at hvalid
    rw [herror, if_neg hvalid]
    rfl

/-- Settles O35: the extracted value fits the field, and inserting it writes the bits that were there. -/
theorem roundTrip : Obligations.RoundTrip := by
  intro fd byte s hvalid
  have hback : exec (.ins fd byte (extractBits byte fd)) s = .next (withOk s byte) := by
    rw [exec_ins_of_valid hvalid (extractBits_le_mask byte fd), insertBits_extractBits]
  exact ⟨_, exec_ext_of_valid hvalid byte s, rfl, hback⟩

/-- Settles O36: each of the four operations, when it succeeds, answers the byte with a fitting value in a valid field. -/
theorem insertNeverAltersOtherBits : Obligations.InsertNeverAltersOtherBits := by
  intro fd byte v rk fk str s t hwf hexec hstr hok
  have hinsert : IsInsert byte fd t.rsp.result := by
    rcases hexec with h | h | ⟨hholds, h⟩
    · obtain ⟨hvalid, hr⟩ := valid_of_ite_eq_ok (answerOf_eq_ok_of_exec h hok)
      exact isInsert_of_insertNumeric hvalid hr
    · obtain ⟨hvalid, hr⟩ := valid_of_ite_eq_ok (answerOf_eq_ok_of_exec h hok)
      exact isInsert_of_insertString hvalid hstr hr
    · obtain ⟨hfield, hvalid⟩ := fieldIn_of_holds hwf hholds
      rcases h with h | h <;> have hr := answerOf_eq_ok_of_exec h hok <;> rw [answerOf, hfield] at hr
      · exact isInsert_of_insertNumeric hvalid hr
      · exact isInsert_of_insertString hvalid hstr hr
  exact ⟨hinsert.and_not_pmask, fun k hk => hinsert.getLsbD_of_covers_eq_false hk⟩

end Sys2Proof.Machine
end

section
/-! PROOFS. 41_schema_lookup.md R82 and R83: what LAY and FLD answer in a well-formed schema, and the words that carry them. -/

namespace Sys2Proof

/-! ## The size of a layout and the FD byte as a number -/

/-- A well-formed layout has at most 8 entries (00_scope.md P5): every width is at least 1 (WF3), and they sum to at
most 8 (WF5). -/
theorem Schema.layout_length_le {sch : Schema} (hwf : sch.wf = true) {e : RegisterEntry} (he : e ∈ sch) :
    e.layout.length ≤ 8 := by
  obtain ⟨-, hlayouts⟩ := (Schema.wf_iff sch).1 hwf
  obtain ⟨-, hvalid, -, hsum⟩ := (RegisterLayout.wf_iff e.layout).1 (hlayouts e he)
  have hwidths : ∀ w ∈ e.layout.map fun f => f.desc.width, 1 ≤ w := by
    intro w hw
    obtain ⟨f, hf, rfl⟩ := List.mem_map.1 hw
    obtain ⟨-, -, hpos, -⟩ := FieldDesc.valid_bounds (hvalid f hf)
    exact hpos
  calc e.layout.length = (e.layout.map fun f => f.desc.width).length := (List.length_map _).symm
    _ ≤ (e.layout.map fun f => f.desc.width).sum := List.length_le_sum_of_one_le _ hwidths
    _ ≤ 8 := hsum

/-- The nibbles of the FD byte do not meet, so joining them is adding them (30_encoding.md R51). -/
theorem byteOfFd_eq_ofNat {fd : FieldDesc} (h : fd.width < 16) :
    byteOfFd fd = BitVec.ofNat 8 (16 * fd.index + fd.width) := by
  have hnibble : fd.width &&& 0xF = fd.width := by
    rw [Nat.and_two_pow_sub_one_eq_mod fd.width 4, Nat.mod_eq_of_lt h]
  rw [byteOfFd, hnibble, ← Nat.shiftLeft_add_eq_or_of_lt h, Nat.shiftLeft_eq, Nat.mul_comm]

/-! ## The request words -/

theorem decode_ofNat_packRequest (f : RequestFields) :
    decode (BitVec.ofNat 40 (packRequest f).toNat) = decodeFields f := by
  rw [BitVec.ofNat_toNat, BitVec.setWidth_eq, decode_packRequest]

theorem decode_lay_word (rk : Byte) : decode (BitVec.ofNat 40 (4 * 2 ^ 36 + rk.toNat * 2 ^ 24)) = .ok (.lay rk) := by
  have hword : 4 * 2 ^ 36 + rk.toNat * 2 ^ 24 = (packRequest ⟨4, 0, rk, 0, 0, 0⟩).toNat := by
    simp [packRequest_toNat]
  rw [hword, decode_ofNat_packRequest]
  rfl

theorem decode_fld_word (rk fk : Byte) :
    decode (BitVec.ofNat 40 (5 * 2 ^ 36 + rk.toNat * 2 ^ 24 + fk.toNat * 2 ^ 16)) = .ok (.fld rk fk) := by
  have hword : 5 * 2 ^ 36 + rk.toNat * 2 ^ 24 + fk.toNat * 2 ^ 16 = (packRequest ⟨5, 0, rk, fk, 0, 0⟩).toNat := by
    simp [packRequest_toNat]
  rw [hword, decode_ofNat_packRequest]
  rfl

end Sys2Proof

namespace Sys2Proof.Machine

open Reference

/-! ## From an operation's answer to the state it leaves -/

theorem exec_of_answerOf_ok {i : Instr} {s : State} {r : Byte} (h : answerOf s.schema i = .ok r) :
    exec i s = .next (withOk s r) := by
  rw [exec_eq, h]
  rfl

theorem exec_of_answerOf_error {i : Instr} {s : State} {f : BlockFault} (h : answerOf s.schema i = .error f) :
    exec i s = .next (withFault s f.code) := by
  rw [exec_eq, h]
  rfl

theorem fieldIn_error_of_noField {sch : Schema} (hwf : sch.wf = true) {rk fk : Byte} (h : NoField sch rk fk) :
    fieldIn sch rk fk = .error .unknownField := by
  obtain ⟨e, he, rfl, hno⟩ := h
  exact fieldIn_of_noField hwf he hno

/-! ## LAY -/

theorem answerOf_lay_of_mem {sch : Schema} (hwf : sch.wf = true) {e : RegisterEntry} (he : e ∈ sch) :
    answerOf sch (.lay e.key) = .ok (BitVec.ofNat 8 e.layout.length) := by
  rw [answerOf, layoutFor_of_mem hwf he]
  rfl

theorem answerOf_lay_of_noRegister {sch : Schema} {rk : Byte} (h : NoRegister sch rk) :
    answerOf sch (.lay rk) = .error .unknownRegister := by
  rw [answerOf, layoutFor_of_absent h]
  rfl

/-- Settles O13: WF1 makes the register's entry the one that is found, and WF3 with WF5 bounds its length. -/
theorem layCountsTheLayout : Obligations.LayCountsTheLayout := by
  refine ⟨fun rk s hwf => ⟨?found, ?absent⟩, decode_lay_word⟩
  case found =>
    rintro e he rfl
    exact ⟨Schema.layout_length_le hwf he, exec_of_answerOf_ok (answerOf_lay_of_mem hwf he)⟩
  case absent => exact fun hno => exec_of_answerOf_error (answerOf_lay_of_noRegister hno)

/-! ## FLD -/

theorem answerOf_fld_of_holds {sch : Schema} (hwf : sch.wf = true) {rk fk : Byte} {fd : FieldDesc}
    (h : Holds sch rk fk fd) : answerOf sch (.fld rk fk) = .ok (BitVec.ofNat 8 (16 * fd.index + fd.width)) := by
  obtain ⟨hfield, hvalid⟩ := fieldIn_of_holds hwf h
  obtain ⟨-, hwidth, -, -⟩ := FieldDesc.valid_bounds hvalid
  rw [answerOf, hfield, ← byteOfFd_eq_ofNat (by omega)]
  rfl

theorem answerOf_fld_of_error {sch : Schema} {rk fk : Byte} {f : BlockFault} (h : fieldIn sch rk fk = .error f) :
    answerOf sch (.fld rk fk) = .error f := by
  rw [answerOf, h]
  rfl

/-- Settles O14: the descriptor found is valid, so its FD byte is neither 0x00 nor more than 0x71; the faults are the lookup's. -/
theorem fldAnswersTheStoredDescriptor : Obligations.FldAnswersTheStoredDescriptor := by
  refine ⟨fun rk fk s hwf => ⟨?found, ?noRegister, ?noField⟩, decode_fld_word⟩
  case found =>
    intro fd hholds
    obtain ⟨-, hvalid⟩ := fieldIn_of_holds hwf hholds
    obtain ⟨hindex, hwidth, hpos, -⟩ := FieldDesc.valid_bounds hvalid
    exact ⟨by omega, by omega, exec_of_answerOf_ok (answerOf_fld_of_holds hwf hholds)⟩
  case noRegister => exact fun hno => exec_of_answerOf_error (answerOf_fld_of_error (fieldIn_of_absent hno))
  case noField =>
    exact fun hno => exec_of_answerOf_error (answerOf_fld_of_error (fieldIn_error_of_noField hwf hno))

end Sys2Proof.Machine
end

section
/-! PROOFS. 60_exceptions.md: the condition of each fault, that an operation reports exactly the fault whose condition
holds (R101 to R104), the order of the faults (R106), and what a fault leaves behind (R107, R108). -/

namespace Sys2Proof

open Reference

/-! ## The forms of an operation -/

/-- An operation is LAY, presents a descriptor, or looks a field up (30_encoding.md R53). -/
theorem Instr.form_cases (i : Instr) :
    (∃ rk, i = .lay rk) ∨ (∃ fd, presented? i = some fd) ∨ ∃ rk fk, fieldKeys? i = some (rk, fk) := by
  cases i with
  | lay rk => exact .inl ⟨rk, rfl⟩
  | ext fd _ | ins fd _ _ | insb fd _ _ => exact .inr (.inl ⟨fd, rfl⟩)
  | fld rk fk | xfr rk fk _ | ifr rk fk _ _ | ifrb rk fk _ _ => exact .inr (.inr ⟨rk, fk, rfl⟩)

/-- The operations with a register key are LAY and those that look a field up. -/
theorem registerKey?_eq_some_iff (i : Instr) (rk : Byte) :
    registerKey? i = some rk ↔ i = .lay rk ∨ ∃ fk, fieldKeys? i = some (rk, fk) := by
  cases i <;> simp [registerKey?, fieldKeys?]

/-- A descriptor is invalid exactly in the cases 60_exceptions.md R101 lists. -/
theorem FieldDesc.valid_eq_false_iff (fd : FieldDesc) :
    fd.valid = false ↔ fd.index > 7 ∨ fd.width = 0 ∨ fd.width > 8 ∨ fd.index + fd.width > 8 := by
  rw [← Bool.not_eq_true, FieldDesc.valid_iff]
  omega

/-- The value the operation inserts does not fit the field (60_exceptions.md R102). -/
def Instr.ValueTooLarge : Instr → FieldDesc → Prop
  | .ins _ _ val, fd | .ifr _ _ _ val, fd => 2 ^ fd.width ≤ val.toNat
  | .insb _ _ str, fd | .ifrb _ _ _ str, fd => fd.width < str.len
  | .ext _ _, _ | .lay _, _ | .fld _ _, _ | .xfr _ _ _, _ => False

/-- Every value a request word can carry fits a whole byte (60_exceptions.md R102). -/
theorem Instr.not_valueTooLarge_of_width_eq_eight {i : Instr} (hi : i.wellFormed = true) {fd : FieldDesc}
    (hwidth : fd.width = 8) : ¬ i.ValueTooLarge fd := by
  cases i with
  | ins _ _ val | ifr _ _ _ val => simpa [Instr.ValueTooLarge, hwidth] using val.isLt
  | insb _ _ str | ifrb _ _ _ str =>
    simp only [Instr.wellFormed, BitString.wellFormed, Bool.and_eq_true, decide_eq_true_eq] at hi
    simp only [Instr.ValueTooLarge]
    omega
  | ext _ _ | lay _ | fld _ _ | xfr _ _ _ => exact id

end Sys2Proof

namespace Sys2Proof.Machine

open Reference

/-! ## The fault conditions -/

/-- The operation has a descriptor to work with: a valid presented one, or the one found in the schema. -/
def KnownField (sch : Schema) (i : Instr) (fd : FieldDesc) : Prop :=
  presented? i = some fd ∧ fd.valid = true ∨ ∃ rk fk, fieldKeys? i = some (rk, fk) ∧ Holds sch rk fk fd

/-- The condition under which an operation reports a fault (60_exceptions.md R101 to R105). -/
def FaultCondition (sch : Schema) (i : Instr) : BlockFault → Prop
  | .invalidFieldSpec => ∃ fd, presented? i = some fd ∧ fd.valid = false
  | .valueOutOfRange  => ∃ fd, KnownField sch i fd ∧ i.ValueTooLarge fd
  | .unknownRegister  => ∃ rk, registerKey? i = some rk ∧ NoRegister sch rk
  | .unknownField     => ∃ rk fk, fieldKeys? i = some (rk, fk) ∧ NoField sch rk fk
  | .illegalRequest   => False

/-! ## The answer in terms of the field -/

/-- What an operation answers once its descriptor is known. LAY has no field: its value here is not used. -/
def onField : Instr → FieldDesc → Except BlockFault Byte
  | .ext _ data, fd | .xfr _ _ data, fd => .ok (extractBits data fd)
  | .ins _ data val, fd | .ifr _ _ data val, fd => insertNumeric data fd val
  | .insb _ data str, fd | .ifrb _ _ data str, fd => insertString data fd str
  | .fld _ _, fd => .ok (byteOfFd fd)
  | .lay _, _ => .ok 0x00

/-- With a known descriptor only ValueOutOfRange is left to report. -/
theorem onField_cases (i : Instr) (fd : FieldDesc) :
    (i.ValueTooLarge fd ∧ onField i fd = .error .valueOutOfRange) ∨
    (¬ i.ValueTooLarge fd ∧ ∃ r, onField i fd = .ok r) := by
  cases i with
  | ins _ data val | ifr _ _ data val =>
    rcases insertNumeric_cases data fd val with ⟨hle, hok⟩ | ⟨hlt, herror⟩
    · exact .inr ⟨((fd.le_mask_iff _).1 hle).not_ge, _, hok⟩
    · exact .inl ⟨not_lt.1 ((fd.le_mask_iff _).not.1 hlt.not_ge), herror⟩
  | insb _ data str | ifrb _ _ data str =>
    rcases insertString_cases data fd str with ⟨hle, hok⟩ | ⟨hlt, herror⟩
    · exact .inr ⟨hle.not_gt, _, hok⟩
    · exact .inl ⟨hlt, herror⟩
  | ext _ _ | lay _ | fld _ _ | xfr _ _ _ => exact .inr ⟨id, _, rfl⟩

theorem answerOf_of_presented {i : Instr} {fd : FieldDesc} (h : presented? i = some fd) (sch : Schema) :
    answerOf sch i = if fd.valid then onField i fd else .error .invalidFieldSpec := by
  cases i with
  | ext | ins | insb =>
    cases h
    rfl
  | lay | fld | xfr | ifr | ifrb => cases h

theorem answerOf_of_fieldKeys {i : Instr} {rk fk : Byte} (h : fieldKeys? i = some (rk, fk)) (sch : Schema) :
    answerOf sch i = (fieldIn sch rk fk).bind (onField i) := by
  cases i with
  | fld | xfr =>
    cases h
    rw [answerOf]
    cases fieldIn sch rk fk <;> rfl
  | ifr | ifrb =>
    cases h
    rfl
  | ext | ins | insb | lay => cases h

/-! ## A fault is reported under its condition -/

theorem answerOf_of_noRegister {sch : Schema} {i : Instr} {rk : Byte} (hkey : registerKey? i = some rk)
    (hno : NoRegister sch rk) : answerOf sch i = .error .unknownRegister := by
  rcases (registerKey?_eq_some_iff i rk).1 hkey with rfl | ⟨fk, hkeys⟩
  · exact answerOf_lay_of_noRegister hno
  · rw [answerOf_of_fieldKeys hkeys, fieldIn_of_absent hno]
    rfl

theorem answerOf_of_noField {sch : Schema} (hwf : sch.wf = true) {i : Instr} {rk fk : Byte}
    (hkeys : fieldKeys? i = some (rk, fk)) (hno : NoField sch rk fk) : answerOf sch i = .error .unknownField := by
  rw [answerOf_of_fieldKeys hkeys, fieldIn_error_of_noField hwf hno]
  rfl

theorem answerOf_of_invalid {i : Instr} {fd : FieldDesc} (h : presented? i = some fd) (hinvalid : fd.valid = false)
    (sch : Schema) : answerOf sch i = .error .invalidFieldSpec := by
  rw [answerOf_of_presented h, hinvalid]
  rfl

theorem answerOf_of_knownField {sch : Schema} (hwf : sch.wf = true) {i : Instr} {fd : FieldDesc}
    (h : KnownField sch i fd) : answerOf sch i = onField i fd := by
  rcases h with ⟨hpresented, hvalid⟩ | ⟨rk, fk, hkeys, hholds⟩
  · rw [answerOf_of_presented hpresented, if_pos hvalid]
  · rw [answerOf_of_fieldKeys hkeys, (fieldIn_of_holds hwf hholds).1]
    rfl

theorem answerOf_of_valueTooLarge {sch : Schema} (hwf : sch.wf = true) {i : Instr} {fd : FieldDesc}
    (h : KnownField sch i fd) (hlarge : i.ValueTooLarge fd) : answerOf sch i = .error .valueOutOfRange := by
  rw [answerOf_of_knownField hwf h]
  rcases onField_cases i fd with ⟨-, herror⟩ | ⟨hfits, -⟩
  · exact herror
  · exact absurd hlarge hfits

/-! ## Only the fault whose condition holds is reported -/

/-- A fault found on a known field is ValueOutOfRange, and the value does not fit. -/
theorem faultCondition_of_onField {sch : Schema} {i : Instr} {fd : FieldDesc} {f : BlockFault}
    (hknown : KnownField sch i fd) (h : onField i fd = .error f) : FaultCondition sch i f := by
  rcases onField_cases i fd with ⟨hlarge, herror⟩ | ⟨-, r, hok⟩
  · cases herror.symm.trans h
    exact ⟨fd, hknown, hlarge⟩
  · cases hok.symm.trans h

/-- In any schema, the fault an operation reports is one whose condition holds. -/
theorem faultCondition_of_answerOf {sch : Schema} {i : Instr} {f : BlockFault} (h : answerOf sch i = .error f) :
    FaultCondition sch i f := by
  rcases i.form_cases with ⟨rk, rfl⟩ | ⟨fd, hpresented⟩ | ⟨rk, fk, hkeys⟩
  · rw [answerOf] at h
    rcases layoutFor_cases sch rk with ⟨e, -, -, hlayout⟩ | ⟨hno, hlayout⟩ <;> rw [hlayout] at h
    · cases h
    · cases h
      exact ⟨rk, rfl, hno⟩
  · rw [answerOf_of_presented hpresented] at h
    split at h
    next hvalid => exact faultCondition_of_onField (.inl ⟨hpresented, hvalid⟩) h
    next hinvalid =>
      cases h
      exact ⟨fd, hpresented, Bool.eq_false_of_not_eq_true hinvalid⟩
  · rw [answerOf_of_fieldKeys hkeys] at h
    rcases fieldIn_cases sch rk fk with
      ⟨e, he, hrk, g, hg, hfk, hfound⟩ | ⟨e, he, hrk, -, hno, hfound⟩ | ⟨hno, hfound⟩ <;> rw [hfound] at h
    · exact faultCondition_of_onField (.inr ⟨rk, fk, hkeys, e, he, hrk, g, hg, hfk, rfl⟩) h
    · cases h
      exact ⟨rk, fk, hkeys, e, he, hrk, hno⟩
    · cases h
      exact ⟨rk, (registerKey?_eq_some_iff i rk).2 (.inr ⟨fk, hkeys⟩), hno⟩

/-- In a well-formed schema an operation reports a fault exactly under its condition. -/
theorem answerOf_eq_error_iff {sch : Schema} (hwf : sch.wf = true) (i : Instr) (f : BlockFault) :
    answerOf sch i = .error f ↔ FaultCondition sch i f := by
  refine ⟨faultCondition_of_answerOf, fun h => ?_⟩
  cases f with
  | invalidFieldSpec =>
    obtain ⟨fd, hpresented, hinvalid⟩ := h
    exact answerOf_of_invalid hpresented hinvalid sch
  | valueOutOfRange =>
    obtain ⟨fd, hknown, hlarge⟩ := h
    exact answerOf_of_valueTooLarge hwf hknown hlarge
  | unknownRegister =>
    obtain ⟨rk, hkey, hno⟩ := h
    exact answerOf_of_noRegister hkey hno
  | unknownField =>
    obtain ⟨rk, fk, hkeys, hno⟩ := h
    exact answerOf_of_noField hwf hkeys hno
  | illegalRequest => exact h.elim

/-! ## The status an operation leaves -/

theorem status_eq_code_iff_of_exec {i : Instr} {s t : State} (h : exec i s = .next t) (f : BlockFault) :
    t.rsp.status = f.code ↔ answerOf s.schema i = .error f := by
  rw [exec_eq, answer_eq_withRsp] at h
  cases h
  exact Rsp.ofAnswer_status_eq_code_iff _ f

theorem status_eq_code_iff_faultCondition {i : Instr} {s t : State} (hwf : s.schema.wf = true)
    (h : exec i s = .next t) (f : BlockFault) : t.rsp.status = f.code ↔ FaultCondition s.schema i f :=
  (status_eq_code_iff_of_exec h f).trans (answerOf_eq_error_iff hwf i f)

/-- Settles O20: InvalidFieldSpec's condition with validity written out; the 256 FD bytes are counted. -/
theorem invalidFieldSpecExactly : Obligations.InvalidFieldSpecExactly := by
  refine ⟨fun i s t hwf hexec => ?_, by rfl⟩
  simp only [← FieldDesc.valid_eq_false_iff]
  exact status_eq_code_iff_faultCondition hwf hexec .invalidFieldSpec

/-- ValueOutOfRange's condition, insert by insert. -/
theorem faultCondition_valueOutOfRange_iff (sch : Schema) (i : Instr) : FaultCondition sch i .valueOutOfRange ↔
    (∃ fd byte v, i = .ins fd byte v ∧ fd.valid = true ∧ 2 ^ fd.width ≤ v.toNat) ∨
    (∃ fd byte str, i = .insb fd byte str ∧ fd.valid = true ∧ fd.width < str.len) ∨
    (∃ rk fk byte v fd, i = .ifr rk fk byte v ∧ Holds sch rk fk fd ∧ 2 ^ fd.width ≤ v.toNat) ∨
    (∃ rk fk byte str fd, i = .ifrb rk fk byte str ∧ Holds sch rk fk fd ∧ fd.width < str.len) := by
  cases i <;> simp [FaultCondition, KnownField, Instr.ValueTooLarge, presented?, fieldKeys?]

/-- Settles O21: ValueOutOfRange's condition, insert by insert; a field of width 8 is known or its descriptor invalid,
and every value fits it. -/
theorem valueOutOfRangeExactly : Obligations.ValueOutOfRangeExactly := by
  intro i s t hwf hi hexec
  have hcode := status_eq_code_iff_of_exec hexec .valueOutOfRange
  refine ⟨?exactly, fun fd hfield hwidth hstatus => ?width8⟩
  case exactly =>
    rw [← faultCondition_valueOutOfRange_iff]
    exact status_eq_code_iff_faultCondition hwf hexec .valueOutOfRange
  case width8 =>
    have hrange := hcode.1 hstatus
    have hknown : KnownField s.schema i fd := by
      refine hfield.imp_left fun hpresented => ⟨hpresented, Bool.of_not_eq_false fun hinvalid => ?_⟩
      cases (answerOf_of_invalid hpresented hinvalid s.schema).symm.trans hrange
    rw [answerOf_of_knownField hwf hknown] at hrange
    rcases onField_cases i fd with ⟨hlarge, -⟩ | ⟨-, r, hok⟩
    · exact Instr.not_valueTooLarge_of_width_eq_eight hi hwidth hlarge
    · cases hok.symm.trans hrange

/-- Settles O22: neither direction needs a well-formed schema. -/
theorem unknownRegisterExactly : Obligations.UnknownRegisterExactly := fun _ _ _ hexec =>
  (status_eq_code_iff_of_exec hexec .unknownRegister).trans
    ⟨faultCondition_of_answerOf, fun ⟨_, hkey, hno⟩ => answerOf_of_noRegister hkey hno⟩

/-- Settles O23: this is UnknownField's condition. -/
theorem unknownFieldExactly : Obligations.UnknownFieldExactly := fun _ _ _ hwf hexec =>
  status_eq_code_iff_faultCondition hwf hexec .unknownField

/-! ## A request step -/

theorem answerTo_of_decode {w : Request} {i : Instr} (h : decode w = .ok i) (sch : Schema) :
    answerTo sch w = answerOf sch i := by
  rw [answerTo, h]

theorem status_of_answerTo_error {s t : State} {w : Request} {rest : List HostAction}
    (hreq : s.env.agenda = .request w :: rest) (hstep : step s = .next t) {f : BlockFault}
    (h : answerTo s.schema w = .error f) : t.rsp.status = f.code := by
  rw [rsp_of_step_request hreq hstep]
  exact (Rsp.ofAnswer_status_eq_code_iff _ f).2 h

/-- Settles O24: the decoder comes first, then the condition of each fault gives the answer whatever the rest of the
request is; a known field leaves the value's check. -/
theorem faultPriority : Obligations.FaultPriority := by
  intro s t w rest hwf hreq hstep
  have hstatus {f : BlockFault} := status_of_answerTo_error hreq hstep (f := f)
  refine ⟨fun r herror => ?illegal, fun i hdecode => ?legal⟩
  case illegal =>
    apply hstatus (f := .illegalRequest)
    rw [answerTo, herror]
  case legal =>
    rw [answerTo_of_decode hdecode] at hstatus
    refine ⟨fun rk hkey hno => hstatus (answerOf_of_noRegister hkey hno),
      fun rk fk hkeys hno => hstatus (answerOf_of_noField hwf hkeys hno),
      fun fd hpresented hinvalid => hstatus (answerOf_of_invalid hpresented hinvalid _), fun fd hknown => ?_⟩
    have hanswer := answerOf_of_knownField hwf hknown
    rcases onField_cases i fd with ⟨-, herror⟩ | ⟨-, r, hok⟩
    · exact .inl (hstatus (hanswer.trans herror))
    · rw [rsp_of_step_request hreq hstep, answerTo_of_decode hdecode, hanswer, hok]
      exact .inr rfl

/-- Settles O25: an OK answer has status 0x00, and a fault's response is its code with RESULT 0x00. -/
theorem faultChangesOnlyTheResponse : Obligations.FaultChangesOnlyTheResponse := by
  intro s t w rest hreq hstep hfault
  cases (step_request hreq).symm.trans hstep
  rcases answer_cases (s.withAgenda rest) (answerTo s.schema w) with ⟨r, -, hok⟩ | ⟨f, -, herror⟩
  · exact absurd (by rw [hok]; rfl) hfault
  · refine ⟨f.code, ?_, herror⟩
    cases f <;> decide

/-- Settles O26: the second answer overwrites the first response, and is made from the schema and its word alone. -/
theorem requestAfterAFaultRunsNormally : Obligations.RequestAfterAFaultRunsNormally := by
  intro s t w v rest hreq hstep _
  cases (step_request_withRsp hreq).symm.trans hstep
  rw [step_request_withRsp (w := v) (rest := rest) rfl, step_request_withRsp (w := v) (rest := rest) rfl]
  rfl

end Sys2Proof.Machine
end

section
/-! PROOFS. 10_state.md R29 and 70_reset_and_hazards.md R120: what a reset of the block does. -/

namespace Sys2Proof.Machine

theorem resetBlock_eq_withRsp (s : State) : resetBlock s = s.withRsp ⟨false, 0x00, 0x00⟩ := rfl

/-- The step of a reset: its entry is taken from the agenda, and only the response register is written. -/
theorem step_resetBlock {s : State} {rest : List HostAction} (h : s.env.agenda = .resetBlock :: rest) :
    step s = .next ((s.withAgenda rest).withRsp ⟨false, 0x00, 0x00⟩) := by
  rw [step_cons h, ← resetBlock_eq_withRsp]
  rfl

/-- Settles O1: the reset state's agenda is empty, so the block is idle there; on a running block the step of a reset
writes the response register and takes its own entry from the agenda. -/
theorem resetClearsOnlyTheResponse : Obligations.ResetClearsOnlyTheResponse :=
  ⟨rfl, step_idle rfl, fun _ _ hreset => step_resetBlock hreset⟩

end Sys2Proof.Machine
end

section
/-! PROOFS. 30_encoding.md sections 1 to 5: encoding and decoding are inverse, and a step runs the decoded
instruction. -/

namespace Sys2Proof

theorem decode_encode_eq_decodeFields (i : Instr) : decode (encode i) = decodeFields (encodeFields i) :=
  decode_packRequest _

/-- A well-formed string passes the decoder's check as its own length and bits. -/
theorem decodeBitString_of_wellFormed {str : BitString} (h : str.wellFormed = true) :
    decodeBitString (BitVec.ofNat 4 str.len) str.bits = .ok str := by
  rw [decodeBitString_eq_ok_iff, BitString.len_toNat h]
  exact ⟨h, rfl⟩

theorem decodeFields_encodeFields {i : Instr} (h : i.wellFormed = true) : decodeFields (encodeFields i) = .ok i := by
  cases i with
  | lay | fld | xfr | ifr => rfl
  | ext fd data =>
    calc decodeFields (encodeFields (.ext fd data)) = .ok (.ext (fdOfByte (byteOfFd fd)) data) := rfl
      _ = .ok (.ext fd data) := by rw [fdOfByte_byteOfFd h]
  | ins fd data val =>
    calc decodeFields (encodeFields (.ins fd data val)) = .ok (.ins (fdOfByte (byteOfFd fd)) data val) := rfl
      _ = .ok (.ins fd data val) := by rw [fdOfByte_byteOfFd h]
  | insb fd data str =>
    obtain ⟨hfd, hstr⟩ := Bool.and_eq_true_iff.1 h
    simp [decodeFields, encodeFields, decodeBitString_of_wellFormed hstr, fdOfByte_byteOfFd hfd]
  | ifrb rk fk data str =>
    simp [decodeFields, encodeFields, decodeBitString_of_wellFormed (str := str) h]

theorem decode_encode {i : Instr} (h : i.wellFormed = true) : decode (encode i) = .ok i := by
  rw [decode_encode_eq_decodeFields, decodeFields_encodeFields h]

/-- A string that the decoder's check passes fills its two fields. -/
theorem fields_of_decodeBitString {vlen : Nibble} {val : Byte} {str : BitString}
    (h : decodeBitString vlen val = .ok str) :
    str.wellFormed = true ∧ BitVec.ofNat 4 str.len = vlen ∧ str.bits = val := by
  obtain ⟨hwf, rfl⟩ := (decodeBitString_eq_ok_iff ..).1 h
  exact ⟨hwf, by simp, rfl⟩

/-- Decoding accepts fields only where every bit of them is used. -/
theorem encodeFields_of_decodeFields {f : RequestFields} {i : Instr} (h : decodeFields f = .ok i) :
    encodeFields i = f ∧ i.wellFormed = true := by
  obtain ⟨op, vlen, a, b, data, val⟩ := f
  have hpresentable := fdOfByte_presentable a
  have hcode {n : Nat} (hn : op.toNat = n) : op = BitVec.ofNat 4 n := by rw [← hn]; simp
  unfold decodeFields at h
  split at h
  case h_3 hop =>
    cases hcode hop
    split at h
    case isTrue hb =>
      cases hb
      split at h <;> cases h
      case h_1 str hstr =>
        obtain ⟨hwf, hlen, hbits⟩ := fields_of_decodeBitString hstr
        simp [encodeFields, byteOfFd_fdOfByte, hlen, hbits, Instr.wellFormed, hpresentable, hwf]
    case isFalse => cases h
  case h_8 hop =>
    cases hcode hop
    split at h <;> cases h
    case h_1 str hstr =>
      obtain ⟨hwf, hlen, hbits⟩ := fields_of_decodeBitString hstr
      simp [encodeFields, hlen, hbits, Instr.wellFormed, hwf]
  case h_9 => cases h
  all_goals
    rename_i hop
    cases hcode hop
    split at h <;> cases h
    next hunused => simp_all [encodeFields, byteOfFd_fdOfByte, Instr.wellFormed]

theorem encode_of_decode {w : Request} {i : Instr} (h : decode w = .ok i) : encode i = w ∧ i.wellFormed = true := by
  obtain ⟨hfields, hwf⟩ := encodeFields_of_decodeFields h
  exact ⟨by rw [encode, hfields, pack_unpack], hwf⟩

/-- Settles O6: each operation's fields decode to it, since its FD byte and its string are read back. -/
theorem decodeOfEncodeIsTheInstruction : Obligations.DecodeOfEncodeIsTheInstruction := fun _ => decode_encode

/-- Settles O7: the decoder's checks leave no field of the word free, operation by operation. -/
theorem encodeOfDecodeIsTheWord : Obligations.EncodeOfDecodeIsTheWord := fun _ _ => encode_of_decode

/-- Settles O8: the decoder is run on each word. -/
theorem sampleWordsDecode : Obligations.SampleWordsDecode :=
  ⟨rfl, rfl, rfl, rfl, rfl, rfl, rfl, rfl, rfl⟩

/-- Settles O3: the step accepts the request, and accepting a word that decodes executes the instruction. -/
theorem stepRunsTheDecodedInstruction : Obligations.StepRunsTheDecodedInstruction := by
  intro s w rest i hreq hdecode
  rw [Machine.step_cons hreq]
  show Machine.accept w (s.withAgenda rest) = _
  rw [Machine.accept, hdecode]
  rfl

end Sys2Proof
end

section
/-! PROOFS. 10_state.md sections 2, 4 and 7: every step keeps the invariant, every built block meets it, and exactly the
ill-formed schemas build none. -/

namespace Sys2Proof.Machine

theorem State.inv_iff (s : State) :
    s.inv = true ↔ s.schema.wf = true ∧ s.rsp.legal = true ∧ s.env.chip.wf = true := by
  simp [State.inv, and_assoc]

theorem BlockFault.code_mem_statusCodes (f : BlockFault) : f.code ∈ statusCodes := by
  cases f <;> decide

theorem Rsp.ok_legal (r : Byte) : (Rsp.ok r).legal = true := by
  simp [Rsp.legal, statusCodes, statusOk]

theorem Rsp.ofFault_legal (f : BlockFault) : (Rsp.ofFault f).legal = true := by
  simp [Rsp.legal, f.code_mem_statusCodes]

/-- Every response of the block is legal, whatever the answer. -/
theorem Rsp.ofAnswer_legal (x : Except BlockFault Byte) : (Rsp.ofAnswer x).legal = true := by
  cases x with
  | ok r => exact Rsp.ok_legal r
  | error f => exact Rsp.ofFault_legal f

theorem Rsp.reset_legal : Rsp.reset.legal = true := by decide

/-- A step leaves the response register as it was, or with an answer, or with its reset values; and it keeps the chip's
memory in canonical form. -/
theorem rsp_and_chip_of_step {s t : State} (h : step s = .next t) :
    (t.rsp = s.rsp ∨ (∃ x, t.rsp = Rsp.ofAnswer x) ∨ t.rsp = Rsp.reset) ∧
      (s.env.chip.wf = true → t.env.chip.wf = true) := by
  rcases step_cases s with ⟨-, hidle⟩ | ⟨w, rest, -, hrequest⟩ | ⟨rest, -, hreset⟩ | hkeeps
  · cases hidle.symm.trans h
    exact ⟨.inl rfl, id⟩
  · cases hrequest.symm.trans h
    rw [answer_eq_withRsp]
    exact ⟨.inr (.inl ⟨_, rfl⟩), id⟩
  · cases hreset.symm.trans h
    exact ⟨.inr (.inr rfl), id⟩
  · obtain ⟨hrsp, -, hchip⟩ := hkeeps t h
    exact ⟨.inl hrsp, hchip⟩

/-- Settles O31: the schema is never changed, and a step leaves each of the other two parts as `rsp_and_chip_of_step`
says. -/
theorem everyStepKeepsTheInvariant : Obligations.EveryStepKeepsTheInvariant := by
  intro s t hinv hstep
  obtain ⟨hschema, hlegal, hchip⟩ := (State.inv_iff s).1 hinv
  obtain ⟨hrsp, hkeeps⟩ := rsp_and_chip_of_step hstep
  refine (State.inv_iff t).2 ⟨schemaNeverChanges s t hstep ▸ hschema, ?_, hkeeps hchip⟩
  rcases hrsp with hsame | ⟨x, hanswer⟩ | hreset
  · rw [hsame]; exact hlegal
  · rw [hanswer]; exact Rsp.ofAnswer_legal x
  · rw [hreset]; exact Rsp.reset_legal

theorem State.reset_inv_of_wf {sch : Schema} (h : sch.wf = true) : { State.reset with schema := sch }.inv = true :=
  (State.inv_iff _).2 ⟨h, Rsp.reset_legal, Memory.wf_nil⟩

theorem State.construct_eq_none_iff (sch : Schema) : State.construct sch = none ↔ ¬ sch.wf = true := by
  rcases State.construct_cases sch with ⟨hwf, h⟩ | ⟨hwf, h⟩ <;> simp [hwf, h]

/-- Settles O32: a block is built exactly for a well-formed schema, and it is the reset state with that schema. -/
theorem builtBlocksMeetTheInvariant : Obligations.BuiltBlocksMeetTheInvariant := by
  refine ⟨State.reset_inv_of_wf (by decide), fun sch s hbuilt => ?built, fun sch => ?refused⟩
  case built =>
    rcases State.construct_cases sch with ⟨hwf, h⟩ | ⟨-, h⟩ <;> cases h.symm.trans hbuilt
    exact ⟨State.reset_inv_of_wf hwf, rfl, rfl⟩
  case refused =>
    rw [State.construct_eq_none_iff, Schema.wf_iff]
    simp only [RegisterLayout.wf_iff, FieldDesc.valid_iff, FieldDesc.overlaps_eq_false_iff]

end Sys2Proof.Machine
end

section
/-! PROOFS. 40_codec_direct.md sections 2 and 3, 42_register_forms.md sections 1 to 3: what the direct and the schema
forms answer, that they agree, and the frame of every operation. -/

namespace Sys2Proof

theorem FieldDesc.presentable_of_valid {fd : FieldDesc} (h : fd.valid = true) : fd.presentable = true := by
  obtain ⟨hindex, hwidth, -, -⟩ := FieldDesc.valid_bounds h
  simp only [FieldDesc.presentable, Bool.and_eq_true, decide_eq_true_eq]
  omega

end Sys2Proof

namespace Sys2Proof.Machine

open Reference

/-! ## The inserts as the spec writes them -/

/-- The insert formula on natural numbers (40_codec_direct.md R71). -/
theorem insertBits_eq_ofNat {fd : FieldDesc} (h : fd.valid = true) (data val : Byte) : insertBits data fd val =
    BitVec.ofNat 8 ((data.toNat &&& (0xFF - fd.pmask)) ||| (val.toNat <<< fd.shift)) := by
  have hpmask := FieldDesc.pmask_le_of_valid h
  have hnot : ~~~BitVec.ofNat 8 fd.pmask = BitVec.ofNat 8 (0xFF - fd.pmask) := by
    apply BitVec.eq_of_toNat_eq
    rw [BitVec.toNat_not, BitVec.toNat_ofNat, BitVec.toNat_ofNat]
    omega
  have hval : val <<< fd.shift = BitVec.ofNat 8 (val.toNat <<< fd.shift) :=
    BitVec.eq_of_toNat_eq (BitVec.toNat_shiftLeft.trans (BitVec.toNat_ofNat ..).symm)
  rw [BitVec.ofNat_or, BitVec.ofNat_and, ← hnot, ← hval, BitVec.ofNat_toNat, BitVec.setWidth_eq, insertBits]

theorem answer_insertNumeric {fd : FieldDesc} (h : fd.valid = true) (data val : Byte) (s : State) :
    answer s (insertNumeric data fd val) = if fd.mask < val.toNat then withFault s 0x02 else
      withOk s (BitVec.ofNat 8 ((data.toNat &&& (0xFF - fd.pmask)) ||| (val.toNat <<< fd.shift))) := by
  rcases insertNumeric_cases data fd val with ⟨hle, hok⟩ | ⟨hlt, herror⟩
  · rw [hok, if_neg hle.not_gt, insertBits_eq_ofNat h]
    rfl
  · rw [herror, if_pos hlt]
    rfl

theorem answer_insertString {fd : FieldDesc} (h : fd.valid = true) (data : Byte) (str : BitString) (s : State) :
    answer s (insertString data fd str) = if fd.width < str.len then withFault s 0x02 else
      withOk s (BitVec.ofNat 8 ((data.toNat &&& (0xFF - fd.pmask)) ||| (str.bits.toNat <<< fd.shift))) := by
  rcases insertString_cases data fd str with ⟨hle, hok⟩ | ⟨hlt, herror⟩
  · rw [hok, if_neg hle.not_gt, insertBits_eq_ofNat h]
    rfl
  · rw [herror, if_pos hlt]
    rfl

/-- A string that is not longer than the field is inserted as its number is (40_codec_direct.md R72). -/
theorem insertString_eq_insertNumeric {fd : FieldDesc} {str : BitString} (hstr : str.wellFormed = true)
    (hlen : str.len ≤ fd.width) (data : Byte) : insertString data fd str = insertNumeric data fd str.bits := by
  have hfits : str.bits.toNat ≤ fd.mask := (fd.le_mask_iff _).2
    ((BitString.bits_lt_of_wellFormed hstr).trans_le (Nat.pow_le_pow_right two_pos hlen))
  rw [insertString, insertNumeric, if_neg hlen.not_gt, if_neg hfits.not_gt]

/-! ## The operations -/

theorem exec_of_invalid {i : Instr} {fd : FieldDesc} (h : presented? i = some fd) (hinvalid : fd.valid = false)
    (s : State) : exec i s = .next (withFault s 0x01) :=
  exec_of_answerOf_error (answerOf_of_invalid h hinvalid s.schema)

theorem exec_of_knownField {i : Instr} {fd : FieldDesc} {s : State} (hwf : s.schema.wf = true)
    (h : KnownField s.schema i fd) : exec i s = .next (answer s (onField i fd)) := by
  rw [exec_eq, answerOf_of_knownField hwf h]

theorem exec_of_presented {i : Instr} {fd : FieldDesc} (h : presented? i = some fd) (hvalid : fd.valid = true)
    (s : State) : exec i s = .next (answer s (onField i fd)) := by
  rw [exec_eq, answerOf_of_presented h, if_pos hvalid]

/-- The two faults of the lookup, in each operation that looks a field up (60_exceptions.md R103, R104). -/
theorem exec_lookup_faults {i : Instr} {rk fk : Byte} (hkeys : fieldKeys? i = some (rk, fk)) {s : State}
    (hwf : s.schema.wf = true) :
    (NoRegister s.schema rk → exec i s = .next (withFault s 0x03)) ∧
    (NoField s.schema rk fk → exec i s = .next (withFault s 0x04)) := by
  have hkey := (registerKey?_eq_some_iff i rk).2 (.inr ⟨fk, hkeys⟩)
  exact ⟨fun hno => exec_of_answerOf_error (answerOf_of_noRegister hkey hno),
    fun hno => exec_of_answerOf_error (answerOf_of_noField hwf hkeys hno)⟩

/-- Settles O11: the descriptor is checked first, then the value. -/
theorem insReplacesTheField : Obligations.InsReplacesTheField := by
  intro i w byte v s
  by_cases hvalid : (FieldDesc.mk i w).valid = true
  · rw [exec_of_presented rfl hvalid, if_neg (not_not.2 ((FieldDesc.valid_iff _).1 hvalid))]
    exact congrArg _ (answer_insertNumeric hvalid byte v s)
  · rw [exec_of_invalid rfl (Bool.eq_false_of_not_eq_true hvalid), if_pos (mt (FieldDesc.valid_iff _).2 hvalid)]

/-- Settles O12: as INS, with the string's length in place of the value's size. -/
theorem insbReplacesTheFieldWithTheString : Obligations.InsbReplacesTheFieldWithTheString := by
  intro i w byte str s hstr
  constructor
  · by_cases hvalid : (FieldDesc.mk i w).valid = true
    · rw [exec_of_presented rfl hvalid, if_neg (not_not.2 ((FieldDesc.valid_iff _).1 hvalid))]
      exact congrArg _ (answer_insertString hvalid byte str s)
    · rw [exec_of_invalid rfl (Bool.eq_false_of_not_eq_true hvalid), if_pos (mt (FieldDesc.valid_iff _).2 hvalid)]
  · intro hin hlen
    have hvalid := (FieldDesc.valid_iff ⟨i, w⟩).2 hin
    rw [exec_of_presented rfl hvalid, exec_of_presented rfl hvalid, onField, onField,
      insertString_eq_insertNumeric hstr hlen]

/-- Settles O15: the lookup finds the stored descriptor, and the extract needs no further check. -/
theorem xfrAnswersTheStoredField : Obligations.XfrAnswersTheStoredField := by
  refine fun rk fk byte s hwf => ⟨fun fd hholds => ?_, exec_lookup_faults rfl hwf⟩
  rw [exec_of_knownField hwf (.inr ⟨rk, fk, rfl, hholds⟩), onField, extractBits_eq_ofNat]
  rfl

/-- Settles O16: the stored descriptor is valid, so only the value's check is left. -/
theorem ifrReplacesTheStoredField : Obligations.IfrReplacesTheStoredField := by
  refine fun rk fk byte v s hwf => ⟨fun fd hholds => ?_, exec_lookup_faults rfl hwf⟩
  rw [exec_of_knownField hwf (.inr ⟨rk, fk, rfl, hholds⟩)]
  exact congrArg _ (answer_insertNumeric (fieldIn_of_holds hwf hholds).2 byte v s)

/-- Settles O17: as IFR, with the string's length in place of the value's size. -/
theorem ifrbReplacesTheStoredFieldWithTheString : Obligations.IfrbReplacesTheStoredFieldWithTheString := by
  refine fun rk fk byte str s hwf _ => ⟨fun fd hholds => ?_, exec_lookup_faults rfl hwf⟩
  rw [exec_of_knownField hwf (.inr ⟨rk, fk, rfl, hholds⟩)]
  exact congrArg _ (answer_insertString (fieldIn_of_holds hwf hholds).2 byte str s)

/-- Settles O27: an operation answers, and answering writes the response register only. -/
theorem everyOperationCompletesAndTouchesNoMemory : Obligations.EveryOperationCompletesAndTouchesNoMemory := by
  intro i s
  refine ⟨s.withRsp (Rsp.ofAnswer (answerOf s.schema i)), ?_, ?_, rfl, rfl, fun _ => rfl, fun _ => rfl⟩
  · rw [exec_eq, answer_eq_withRsp]
  · cases answerOf s.schema i <;> rfl

/-! ## The schema forms and the direct forms (42_register_forms.md R93, 41_schema_lookup.md R84) -/

/-- The lookup finds exactly what a well-formed schema holds. -/
theorem fieldIn_eq_ok_iff {sch : Schema} (hwf : sch.wf = true) {rk fk : Byte} {fd : FieldDesc} :
    fieldIn sch rk fk = .ok fd ↔ Holds sch rk fk fd := by
  refine ⟨fun h => ?_, fun h => (fieldIn_of_holds hwf h).1⟩
  rcases fieldIn_cases sch rk fk with ⟨e, he, hrk, f, hf, hfk, hfound⟩ | ⟨-, -, -, -, -, hfound⟩ | ⟨-, hfound⟩ <;>
    cases hfound.symm.trans h
  exact ⟨e, he, hrk, f, hf, hfk, rfl⟩

theorem valid_of_fieldIn {sch : Schema} (hwf : sch.wf = true) {rk fk : Byte} {fd : FieldDesc}
    (h : fieldIn sch rk fk = .ok fd) : fd.valid = true :=
  (fieldIn_of_holds hwf ((fieldIn_eq_ok_iff hwf).1 h)).2

/-- What FLD can do in a well-formed schema: answer the FD byte that stands for the descriptor found, which is valid,
or end with the lookup's fault. -/
theorem exec_fld_cases {rk fk : Byte} {s t : State} (hwf : s.schema.wf = true) (h : exec (.fld rk fk) s = .next t) :
    (t.rsp.status = 0x00 ∧ fieldIn s.schema rk fk = .ok (fdOfByte t.rsp.result) ∧
      (fdOfByte t.rsp.result).valid = true) ∨
    (t.rsp.status ≠ 0x00 ∧ ∃ f, fieldIn s.schema rk fk = .error f ∧ t = withFault s f.code) := by
  rw [exec_eq, answerOf] at h
  cases hfield : fieldIn s.schema rk fk with
  | ok fd =>
    have hvalid := valid_of_fieldIn hwf hfield
    rw [hfield] at h
    cases h
    have hback : fdOfByte (byteOfFd fd) = fd := fdOfByte_byteOfFd (FieldDesc.presentable_of_valid hvalid)
    exact .inl ⟨rfl, congrArg Except.ok hback.symm, hback.symm ▸ hvalid⟩
  | error f =>
    rw [hfield] at h
    cases h
    exact .inr ⟨f.code_ne_ok, f, rfl, rfl⟩

/-- A schema form whose lookup finds a valid descriptor does what the direct form does on it. -/
theorem exec_eq_of_fieldIn {i j : Instr} {rk fk : Byte} {fd : FieldDesc} {s : State}
    (hi : fieldKeys? i = some (rk, fk)) (hj : presented? j = some fd) (hsame : onField i = onField j)
    (hfield : fieldIn s.schema rk fk = .ok fd) (hvalid : fd.valid = true) : exec i s = exec j s := by
  rw [exec_of_presented hj hvalid, exec_eq, answerOf_of_fieldKeys hi, hfield, ← hsame]
  rfl

theorem exec_of_fieldIn_error {i : Instr} {rk fk : Byte} {f : BlockFault} {s : State}
    (hi : fieldKeys? i = some (rk, fk)) (hfield : fieldIn s.schema rk fk = .error f) :
    exec i s = .next (withFault s f.code) := by
  apply exec_of_answerOf_error
  rw [answerOf_of_fieldKeys hi, hfield]
  rfl

/-- Settles O18: all four operations start with the same lookup, and its descriptor is read back from the FD byte. -/
theorem schemaFormsAgreeWithDirectForms : Obligations.SchemaFormsAgreeWithDirectForms := by
  intro rk fk byte v str s t hwf hfld
  rcases exec_fld_cases hwf hfld with ⟨hok, hfield, hvalid⟩ | ⟨hfault, f, hfield, rfl⟩
  · exact ⟨fun _ => ⟨exec_eq_of_fieldIn rfl rfl rfl hfield hvalid, exec_eq_of_fieldIn rfl rfl rfl hfield hvalid,
      exec_eq_of_fieldIn rfl rfl rfl hfield hvalid⟩, fun hne => absurd hok hne⟩
  · exact ⟨fun hok => absurd hok hfault, fun _ => ⟨exec_of_fieldIn_error rfl hfield, exec_of_fieldIn_error rfl hfield,
      exec_of_fieldIn_error rfl hfield⟩⟩

/-- An operation on a valid presented descriptor does not report InvalidFieldSpec. -/
theorem status_ne_invalidFieldSpec {i : Instr} {fd : FieldDesc} {s u : State} (hwf : s.schema.wf = true)
    (hi : presented? i = some fd) (hvalid : fd.valid = true) (h : exec i s = .next u) : u.rsp.status ≠ 0x01 := by
  intro hstatus
  obtain ⟨g, hg, hinvalid⟩ := (status_eq_code_iff_faultCondition hwf h .invalidFieldSpec).1 hstatus
  cases hi.symm.trans hg
  exact Bool.false_ne_true (hinvalid.symm.trans hvalid)

/-- Settles O19: an OK answer of FLD stands for a valid descriptor. -/
theorem fldByteIsAlwaysAValidDescriptor : Obligations.FldByteIsAlwaysAValidDescriptor := by
  intro rk fk byte v str s t u hwf hfld hok hexec
  rcases exec_fld_cases hwf hfld with ⟨-, -, hvalid⟩ | ⟨hfault, -⟩
  · rcases hexec with h | h | h <;> exact status_ne_invalidFieldSpec hwf rfl hvalid h
  · exact absurd hok hfault

end Sys2Proof.Machine
end

section
/-! PROOFS. 40_codec_direct.md section 4: the laws of the codec, from the two datapaths bit by bit; 41_schema_lookup.md
section 4: the fields of one register; 20_memory.md section 2: the command byte as a codec of its own. -/

namespace Sys2Proof

/-- The two ways to say which bits of a byte a valid descriptor covers (10_state.md R13). -/
theorem FieldDesc.covers_position_iff {fd : FieldDesc} (h : fd.valid = true) {k : Nat} (hk : k < 8) :
    (fd.shift ≤ 7 - k ∧ 7 - k < fd.shift + fd.width) ↔ fd.index ≤ k ∧ k < fd.index + fd.width := by
  rw [← FieldDesc.covers_iff_of_valid h hk, FieldDesc.covers, Bool.and_eq_true, decide_eq_true_eq, decide_eq_true_eq]

/-- Settles O42: the one-bits of the positioned mask are the positions `shift` to `shift + width - 1`. -/
theorem positionedMaskCoversExactlyTheField : Obligations.PositionedMaskCoversExactlyTheField := by
  intro fd hvalid n hn
  obtain ⟨-, -, hpos, hsum⟩ := FieldDesc.valid_bounds hvalid
  rw [FieldDesc.testBit_pmask]
  constructor <;> omega

/-- No position lies in both of two fields that do not overlap. -/
theorem FieldDesc.not_both_of_overlaps_eq_false {f g : FieldDesc} (h : f.overlaps g = false) {n : Nat}
    (hf : f.shift ≤ n ∧ n < f.shift + f.width) : ¬ (g.shift ≤ n ∧ n < g.shift + g.width) := by
  intro hg
  have hboth := (FieldDesc.overlaps_iff_exists_testBit f g).2
    ⟨n, (f.testBit_pmask n).2 hf, (g.testBit_pmask n).2 hg⟩
  exact Bool.false_ne_true (h.symm.trans hboth)

end Sys2Proof

namespace Sys2Proof.Machine

open Reference

@[simp] theorem withOk_result (s : State) (r : Byte) : (withOk s r).rsp.result = r := rfl

/-! ## Extracts and inserts of bytes -/

section
variable {fd : FieldDesc} {val : Byte} (hval : val.toNat < 2 ^ fd.width)
include hval

theorem getLsbD_of_lt_two_pow {n : Nat} (hn : fd.width ≤ n) : val.getLsbD n = false :=
  Nat.testBit_lt_two_pow (hval.trans_le (Nat.pow_le_pow_right two_pos hn))

/-- Read-back (40_codec_direct.md R76). -/
theorem extractBits_insertBits_same (hvalid : fd.valid = true) (data : Byte) :
    extractBits (insertBits data fd val) fd = val := by
  obtain ⟨-, -, -, hsum⟩ := FieldDesc.valid_bounds hvalid
  apply BitVec.eq_of_getLsbD_eq
  intro n hn
  rw [getLsbD_extractBits]
  by_cases hin : n < fd.width
  · rw [getLsbD_insertBits hval data (by omega), if_pos (by omega)]
    simp [hin]
  · rw [getLsbD_of_lt_two_pow hval (not_lt.1 hin), decide_eq_false hin, Bool.false_and]

/-- Composition in one field (40_codec_direct.md R78(a)). -/
theorem insertBits_insertBits_same {u : Byte} (hu : u.toNat < 2 ^ fd.width) (data : Byte) :
    insertBits (insertBits data fd u) fd val = insertBits data fd val := by
  apply BitVec.eq_of_getLsbD_eq
  intro n hn
  rw [getLsbD_insertBits hval _ hn, getLsbD_insertBits hval _ hn]
  split
  next => rfl
  next hout => rw [getLsbD_insertBits hu _ hn, if_neg hout]

/-- An insert does not reach the extract of a field it does not overlap (40_codec_direct.md R78(b)). -/
theorem extractBits_insertBits_disjoint {g : FieldDesc} (hg : g.valid = true) (hno : fd.overlaps g = false)
    (data : Byte) : extractBits (insertBits data fd val) g = extractBits data g := by
  obtain ⟨-, -, -, hsum⟩ := FieldDesc.valid_bounds hg
  apply BitVec.eq_of_getLsbD_eq
  intro n hn
  rw [getLsbD_extractBits, getLsbD_extractBits]
  by_cases hin : n < g.width
  · have hout : ¬ (fd.shift ≤ n + g.shift ∧ n + g.shift < fd.shift + fd.width) := fun hfd =>
      FieldDesc.not_both_of_overlaps_eq_false hno hfd ⟨by omega, by omega⟩
    rw [getLsbD_insertBits hval data (by omega), if_neg hout]
  · simp [hin]

/-- Inserts into fields that do not overlap commute (40_codec_direct.md R78(b)). -/
theorem insertBits_comm {g : FieldDesc} {v : Byte} (hv : v.toNat < 2 ^ g.width) (hno : fd.overlaps g = false)
    (data : Byte) : insertBits (insertBits data fd val) g v = insertBits (insertBits data g v) fd val := by
  apply BitVec.eq_of_getLsbD_eq
  intro n hn
  simp only [getLsbD_insertBits hval _ hn, getLsbD_insertBits hv _ hn]
  by_cases hf : fd.shift ≤ n ∧ n < fd.shift + fd.width
  · rw [if_neg (FieldDesc.not_both_of_overlaps_eq_false hno hf), if_pos hf, if_pos hf]
  · rw [if_neg hf, if_neg hf]

end

/-! ## The laws -/

/-- Settles O33: the result of EXT is the extract, bit by bit. -/
theorem extractIsAMultiplexer : Obligations.ExtractIsAMultiplexer := by
  intro fd byte s t hvalid hexec n _
  cases (exec_ext_of_valid hvalid byte s).symm.trans hexec
  exact getLsbD_extractBits byte fd n

/-- Settles O34: the result of INS is the insert, bit by bit; field index `k` is position `7 - k`. -/
theorem insertIsAMultiplexer : Obligations.InsertIsAMultiplexer := by
  intro fd byte v s t hvalid hv hexec
  cases (exec_ins_of_valid hvalid ((fd.le_mask_iff _).2 hv) byte s).symm.trans hexec
  have hbit {n : Nat} (hn : n < 8) := getLsbD_insertBits hv byte hn
  refine ⟨fun n hn => hbit hn, fun k hk => ?_⟩
  obtain ⟨-, -, -, hsum⟩ := FieldDesc.valid_bounds hvalid
  have hpos : 7 - k - fd.shift = fd.index + fd.width - 1 - k := by omega
  simp only [withOk, hbit (show 7 - k < 8 by omega), FieldDesc.covers_position_iff hvalid hk, hpos]

/-- Settles O37: `extractBits_insertBits_same`, in the answers of the two operations. -/
theorem readBack : Obligations.ReadBack := by
  intro fd byte v s hvalid hv
  refine ⟨_, exec_ins_of_valid hvalid hv byte s, rfl, ?_⟩
  rw [exec_ext_of_valid hvalid, withOk_result, extractBits_insertBits_same ((fd.le_mask_iff _).1 hv) hvalid]

/-- Settles O38: `insertBits_insertBits_same`, in the answers of the operation. -/
theorem lastInsertWins : Obligations.LastInsertWins := by
  intro fd byte u v s hvalid hu hv
  refine ⟨_, exec_ins_of_valid hvalid hu byte s, ?_⟩
  rw [exec_ins_of_valid hvalid hv, exec_ins_of_valid hvalid hv, withOk_result,
    insertBits_insertBits_same ((fd.le_mask_iff _).1 hv) ((fd.le_mask_iff _).1 hu)]

/-- Settles O39: `insertBits_comm` and `extractBits_insertBits_disjoint`, in the answers of the operations. -/
theorem disjointFieldsAreIndependent : Obligations.DisjointFieldsAreIndependent := by
  intro f g byte u v s hf hg hno hu hv
  have hu' := (f.le_mask_iff _).1 hu
  have hv' := (g.le_mask_iff _).1 hv
  refine ⟨_, _, exec_ins_of_valid hf hu byte s, exec_ins_of_valid hg hv byte s, ?commute, ?keep⟩
  case commute =>
    rw [exec_ins_of_valid hg hv, exec_ins_of_valid hf hu, withOk_result, withOk_result, insertBits_comm hu' hv' hno]
  case keep =>
    rw [exec_ext_of_valid hg, exec_ext_of_valid hg, withOk_result, extractBits_insertBits_disjoint hu' hg hno]

/-! ## The fields of one register -/

/-- Two distinct fields of one register do not overlap: WF1 makes their layout one, WF4 keeps its fields apart. -/
theorem overlaps_eq_false_of_holds {sch : Schema} (hwf : sch.wf = true) {rk fk gk : Byte} (hne : fk ≠ gk)
    {f g : FieldDesc} (hf : Holds sch rk fk f) (hg : Holds sch rk gk g) : f.overlaps g = false := by
  obtain ⟨e, he, rfl, a, ha, rfl, rfl⟩ := hf
  obtain ⟨e', he', hkey, b, hb, rfl, rfl⟩ := hg
  cases List.inj_on_of_nodup_map ((Schema.wf_iff sch).1 hwf).1 he' he hkey
  have : Std.Symm fun a b : FieldEntry => a.desc.overlaps b.desc = false :=
    ⟨fun a b h => by rw [FieldDesc.overlaps_eq_false_iff] at h ⊢; rwa [Nat.and_comm]⟩
  exact (Schema.layout_of_wf hwf he).2.forall ha hb fun hab => hne (congrArg _ hab)

/-- An insert into one field leaves what XFR answers for every other field key of the register: another field is
disjoint from it, and a key that the layout lacks gives the same fault on every byte. -/
theorem exec_xfr_of_isInsert {s : State} (hwf : s.schema.wf = true) {rk fk gk byte r : Byte} {f : FieldDesc}
    (hne : fk ≠ gk) (hf : Holds s.schema rk fk f) (h : IsInsert byte f r) :
    exec (.xfr rk gk r) s = exec (.xfr rk gk byte) s := by
  obtain ⟨-, v, hv, rfl⟩ := h
  rw [exec_eq, exec_eq, answerOf, answerOf]
  cases hfield : fieldIn s.schema rk gk with
  | error => rfl
  | ok g =>
    have hg := (fieldIn_eq_ok_iff hwf).1 hfield
    have hkeep := extractBits_insertBits_disjoint hv (valid_of_fieldIn hwf hfield)
      (overlaps_eq_false_of_holds hwf hne hf hg) byte
    exact congrArg (fun b => Host.Outcome.next (respond s b)) hkeep

/-- Settles O40: fields of one register do not overlap, and a successful IFR is an insert. -/
theorem fieldsOfOneRegisterAreIndependent : Obligations.FieldsOfOneRegisterAreIndependent := by
  intro rk fk gk byte v f g s t hwf hne hf hg hexec hok
  obtain ⟨hfield, hvalid⟩ := fieldIn_of_holds hwf hf
  have hr := answerOf_eq_ok_of_exec hexec hok
  rw [answerOf, hfield] at hr
  exact ⟨(FieldDesc.overlaps_eq_false_iff f g).1 (overlaps_eq_false_of_holds hwf hne hf hg),
    exec_xfr_of_isInsert hwf hne hf (isInsert_of_insertNumeric hvalid hr)⟩

/-! ## The command byte -/

/-- The command byte is its header with the address inserted into ADDR (30_encoding.md R63). -/
theorem commandByte_eq_insertBits (c : BusClass) (a : Byte) : commandByte c a = insertBits c.header ⟨2, 6⟩ a := by
  cases c <;> simp [commandByte, insertBits, BusClass.header, FieldDesc.pmask, FieldDesc.mask, FieldDesc.shift]

theorem extractBits_header (c : BusClass) : extractBits c.header ⟨0, 2⟩ = c.number := by
  cases c <;> decide

/-- A status register's address has both header bits set already (90_conflicts.md C2). -/
theorem commandByte_of_status (c : BusClass) {a : Byte} (hlow : 0xF0 ≤ a.toNat) : commandByte c a = a := by
  have hset : ∀ a : Byte, 0xF0 ≤ a.toNat → 0xC0#8 ||| a = a := by decide
  have hsub : c.header ||| 0xC0#8 = 0xC0#8 := by cases c <;> decide
  rw [← hset a hlow, commandByte, ← BitVec.or_assoc, hsub]

/-- Settles O54: an address below 0x40 is a value inserted into ADDR, which does not overlap CLASS. -/
theorem commandByteIsHeaderOrAddress : Obligations.CommandByteIsHeaderOrAddress := by
  refine ⟨fun c a s ha => ?_, fun c a hlow _ => commandByte_of_status c hlow⟩
  have haddr : FieldDesc.valid ⟨2, 6⟩ = true := by decide
  have hclass : FieldDesc.valid ⟨0, 2⟩ = true := by decide
  have hno : FieldDesc.overlaps ⟨2, 6⟩ ⟨0, 2⟩ = false := by decide
  have hfits : a.toNat < 2 ^ (FieldDesc.mk 2 6).width := ha
  rw [commandByte_eq_insertBits, exec_ext_of_valid hclass, exec_ext_of_valid haddr,
    exec_ins_of_valid haddr ((FieldDesc.le_mask_iff _ _).2 hfits)]
  refine ⟨?_, ?_, rfl⟩
  · rw [extractBits_insertBits_disjoint hfits hclass hno, extractBits_header]
  · rw [extractBits_insertBits_same hfits haddr]

end Sys2Proof.Machine
end

section
/-! PROOFS. 10_state.md section 2: the widths of disjoint fields; 30_encoding.md section 4: a bit-string as a number. -/

namespace Sys2Proof

/-! ## The indices a layout covers -/

/-- The field indices that some field of the layout covers (10_state.md R13). -/
def RegisterLayout.coveredIndices : RegisterLayout → Finset Nat
  | [] => ∅
  | f :: l => Finset.Ico f.desc.index (f.desc.index + f.desc.width) ∪ RegisterLayout.coveredIndices l

theorem RegisterLayout.mem_coveredIndices {l : RegisterLayout} {k : Nat} :
    k ∈ RegisterLayout.coveredIndices l ↔ ∃ f ∈ l, f.desc.index ≤ k ∧ k < f.desc.index + f.desc.width := by
  induction l with
  | nil => simp [RegisterLayout.coveredIndices]
  | cons f l ih => simp [RegisterLayout.coveredIndices, ih]

theorem RegisterLayout.card_coveredIndices_le {l : RegisterLayout} (hvalid : ∀ f ∈ l, f.desc.valid = true) :
    (RegisterLayout.coveredIndices l).card ≤ 8 := by
  have hsub : RegisterLayout.coveredIndices l ⊆ Finset.range 8 := by
    intro k hk
    obtain ⟨f, hf, hcovers⟩ := RegisterLayout.mem_coveredIndices.1 hk
    obtain ⟨-, -, -, hsum⟩ := FieldDesc.valid_bounds (hvalid f hf)
    exact Finset.mem_range.2 (by omega)
  simpa using Finset.card_le_card hsub

/-- Fields that do not overlap cover as many indices as their widths sum to. -/
theorem RegisterLayout.sum_widths_eq_card {l : RegisterLayout} (hvalid : ∀ f ∈ l, f.desc.valid = true)
    (hdisjoint : l.Pairwise fun f g => f.desc.overlaps g.desc = false) :
    (l.map fun f => f.desc.width).sum = (RegisterLayout.coveredIndices l).card := by
  induction l with
  | nil => rfl
  | cons f l ih =>
    obtain ⟨hf, hl⟩ := List.forall_mem_cons.1 hvalid
    obtain ⟨hno, hrest⟩ := List.pairwise_cons.1 hdisjoint
    have hapart : Disjoint (Finset.Ico f.desc.index (f.desc.index + f.desc.width))
        (RegisterLayout.coveredIndices l) := by
      rw [Finset.disjoint_left]
      intro k hk hkl
      obtain ⟨g, hg, hcovers⟩ := RegisterLayout.mem_coveredIndices.1 hkl
      have hmeet := (FieldDesc.overlaps_iff_intervals_meet hf (hl g hg)).not.1 (by simp [hno g hg])
      rw [Finset.mem_Ico] at hk
      omega
    rw [List.map_cons, List.sum_cons, ih hl hrest, RegisterLayout.coveredIndices,
      Finset.card_union_of_disjoint hapart, Nat.card_Ico, Nat.add_sub_cancel_left]

theorem RegisterLayout.length_le_sum_widths {l : RegisterLayout} (hvalid : ∀ f ∈ l, f.desc.valid = true) :
    l.length ≤ (l.map fun f => f.desc.width).sum := by
  have hwidths : ∀ w ∈ l.map fun f => f.desc.width, 1 ≤ w := by
    refine List.forall_mem_map.2 fun f hf => ?_
    obtain ⟨-, -, hpos, -⟩ := FieldDesc.valid_bounds (hvalid f hf)
    exact hpos
  simpa using List.length_le_sum_of_one_le _ hwidths

/-- Settles O44: disjoint fields cover as many of the 8 indices as their widths sum to, and each covers at least one. -/
theorem widthsFitFollowsFromDisjointness : Obligations.WidthsFitFollowsFromDisjointness := by
  intro l hvalid hdisjoint
  have hsum : (l.map fun f => f.desc.width).sum ≤ 8 := by
    rw [RegisterLayout.sum_widths_eq_card hvalid hdisjoint]
    exact RegisterLayout.card_coveredIndices_le hvalid
  exact ⟨hsum, (RegisterLayout.length_le_sum_widths hvalid).trans hsum⟩

/-! ## The characters of a bit-string -/

theorem BitString.wellFormed_iff (str : BitString) :
    str.wellFormed = true ↔ 1 ≤ str.len ∧ str.len ≤ 8 ∧ str.bits.toNat < 2 ^ str.len := by
  rw [← Bool.not_eq_false, BitString.wellFormed_eq_false_iff]
  omega

@[simp] theorem BitString.length_chars (str : BitString) : str.chars.length = str.len := by
  simp [BitString.chars]

theorem BitString.getElem?_chars (str : BitString) {k : Nat} (hk : k < str.len) :
    str.chars[k]? = some (str.bits.getLsbD (str.len - 1 - k)) := by
  simp [BitString.chars, hk]

theorem BitString.head?_chars {str : BitString} (h : 1 ≤ str.len) :
    str.chars.head? = some (str.bits.getLsbD (str.len - 1)) := by
  rw [List.head?_eq_getElem?, str.getElem?_chars h, Nat.sub_zero]

theorem BitString.getLast?_chars {str : BitString} (h : 1 ≤ str.len) :
    str.chars.getLast? = some (str.bits.getLsbD 0) := by
  rw [List.getLast?_eq_getElem?, str.length_chars, str.getElem?_chars (by omega), Nat.sub_self]

/-- One character less: the first character is the highest bit, the others are the shorter string's. -/
theorem BitString.chars_succ (n : Nat) (b : Byte) :
    (BitString.mk (n + 1) b).chars = b.getLsbD n :: (BitString.mk n b).chars := by
  simp only [BitString.chars, List.range_succ_eq_map, List.map_cons, List.map_map, Nat.add_sub_cancel, Nat.sub_zero]
  refine congrArg _ (List.map_congr_left fun k _ => ?_)
  exact congrArg b.getLsbD (by omega)

/-! ## The value of a string -/

/-- Reading on from the value of what stands on the left. -/
theorem foldl_chars_eq (n : Nat) (b : Byte) (acc : Nat) :
    (BitString.mk n b).chars.foldl (fun m c => 2 * m + c.toNat) acc = acc * 2 ^ n + b.toNat % 2 ^ n := by
  induction n generalizing acc with
  | zero => simp [BitString.chars, Nat.mod_one]
  | succ n ih =>
    have hbit : b.toNat % 2 ^ (n + 1) = b.toNat % 2 ^ n + 2 ^ n * (b.getLsbD n).toNat := by
      rw [Nat.mod_pow_succ, ← BitVec.testBit_toNat, Nat.toNat_testBit]
    rw [BitString.chars_succ, List.foldl_cons, ih, hbit]
    ring

theorem valueOfChars_chars {str : BitString} (h : str.wellFormed = true) : valueOfChars str.chars = str.bits.toNat := by
  rw [valueOfChars, foldl_chars_eq, Nat.zero_mul, Nat.zero_add, Nat.mod_eq_of_lt (BitString.bits_lt_of_wellFormed h)]

/-- Leading zeros do not count. -/
theorem valueOfChars_replicate_append (n : Nat) (chars : List Bool) :
    valueOfChars (List.replicate n false ++ chars) = valueOfChars chars := by
  induction n with
  | zero => rfl
  | succ n ih => exact ih

theorem length_padLeft {w : Nat} {chars : List Bool} (h : chars.length ≤ w) : (padLeft w chars).length = w := by
  rw [padLeft, List.length_append, List.length_replicate, Nat.sub_add_cancel h]

/-- Settles O45: the characters are the bits from the top down, so their value is the number, and leading zeros do not
count. -/
theorem leftPaddingKeepsTheValue : Obligations.LeftPaddingKeepsTheValue := by
  intro str w hstr
  obtain ⟨hpos, -, -⟩ := (BitString.wellFormed_iff str).1 hstr
  have hvalue := valueOfChars_chars hstr
  refine ⟨str.length_chars, BitString.head?_chars hpos, BitString.getLast?_chars hpos, hvalue, fun hlen => ?_⟩
  exact ⟨length_padLeft (str.length_chars.le.trans hlen), (valueOfChars_replicate_append _ _).trans hvalue⟩

end Sys2Proof
end

section
/-! PROOFS. 00_scope.md section 5.3: the block is the reference function, its datapaths and its lookups being the
reference's arithmetic and its filters; 70_reset_and_hazards.md R123: a datasheet's bit numbers. -/

namespace Sys2Proof

theorem FieldDesc.ofDatasheet_valid {hi lo : Nat} (hle : lo ≤ hi) (hhi : hi ≤ 7) :
    (FieldDesc.ofDatasheet hi lo).valid = true := by
  simp only [FieldDesc.valid_iff, FieldDesc.ofDatasheet]
  omega

end Sys2Proof

namespace Sys2Proof.Machine

open Reference

/-! ## The datapaths by division and remainder -/

theorem extractBits_eq_ofNat_extract (data : Byte) (fd : FieldDesc) :
    extractBits data fd = BitVec.ofNat 8 (extract data.toNat fd.index fd.width) := by
  rw [extractBits_eq_ofNat, FieldDesc.mask_eq, Nat.and_two_pow_sub_one_eq_mod, Nat.shiftRight_eq_div_pow]
  rfl

theorem extractBits_toNat (data : Byte) (fd : FieldDesc) :
    (extractBits data fd).toNat = extract data.toNat fd.index fd.width := by
  have hlt : extract data.toNat fd.index fd.width < 2 ^ 8 :=
    ((Nat.mod_le _ _).trans (Nat.div_le_self _ _)).trans_lt data.isLt
  rw [extractBits_eq_ofNat_extract, BitVec.toNat_ofNat, Nat.mod_eq_of_lt hlt]

/-- A fitting value moved to its place is not cut off. -/
theorem toNat_shiftLeft_shift {fd : FieldDesc} (h : fd.valid = true) {val : Byte} (hval : val.toNat < 2 ^ fd.width) :
    (val <<< fd.shift).toNat = val.toNat * 2 ^ fd.shift := by
  obtain ⟨-, -, -, hsum⟩ := FieldDesc.valid_bounds h
  have hlt : val.toNat * 2 ^ fd.shift < 2 ^ 8 := calc
    val.toNat * 2 ^ fd.shift < 2 ^ fd.width * 2 ^ fd.shift := Nat.mul_lt_mul_of_pos_right hval (Nat.two_pow_pos _)
    _ = 2 ^ (fd.width + fd.shift) := (Nat.pow_add ..).symm
    _ ≤ 2 ^ 8 := Nat.pow_le_pow_right two_pos (by omega)
  rw [BitVec.toNat_shiftLeft, Nat.shiftLeft_eq, Nat.mod_eq_of_lt hlt]

/-- The cleared byte and the value moved to its place have no bit in common, so joining them is adding them. -/
theorem insertBits_toNat_eq_add {fd : FieldDesc} (h : fd.valid = true) {val : Byte} (hval : val.toNat < 2 ^ fd.width)
    (data : Byte) : (insertBits data fd val).toNat =
      (data &&& ~~~BitVec.ofNat 8 fd.pmask).toNat + val.toNat * 2 ^ fd.shift := by
  have hapart : (data &&& ~~~BitVec.ofNat 8 fd.pmask) &&& (val <<< fd.shift) = 0#8 := by
    apply BitVec.eq_of_getLsbD_eq
    intro n hn
    simp only [BitVec.getLsbD_and, BitVec.getLsbD_not, BitVec.getLsbD_shiftLeft, FieldDesc.getLsbD_ofNat_pmask]
    by_cases hbelow : n < fd.shift
    · simp [hbelow]
    · by_cases hfield : n < fd.shift + fd.width
      · simp [hn, hfield, not_lt.1 hbelow]
      · simp [getLsbD_of_lt_two_pow hval (show fd.width ≤ n - fd.shift by omega)]
  rw [insertBits, ← BitVec.add_eq_or_of_and_eq_zero _ _ hapart, BitVec.toNat_add_of_and_eq_zero hapart,
    toNat_shiftLeft_shift h hval]

/-- The insert by arithmetic: the byte is the insert of its own field, so the two differ in the field's value only. -/
theorem insertBits_toNat {fd : FieldDesc} (h : fd.valid = true) {val : Byte} (hval : val.toNat < 2 ^ fd.width)
    (data : Byte) : (insertBits data fd val).toNat = insert data.toNat fd.index fd.width val.toNat := by
  have hown := insertBits_toNat_eq_add h ((fd.le_mask_iff _).1 (extractBits_le_mask data fd)) data
  rw [insertBits_extractBits, extractBits_toNat] at hown
  show _ = data.toNat - extract data.toNat fd.index fd.width * 2 ^ fd.shift + val.toNat * 2 ^ fd.shift
  rw [insertBits_toNat_eq_add h hval, Nat.sub_eq_of_eq_add hown]

/-! ## Responses as pairs of numbers -/

/-- An answer as the reference writes it: `STATUS` and `RESULT` as numbers. -/
def responseOf (x : Except BlockFault Byte) : Response :=
  ((Rsp.ofAnswer x).status.toNat, (Rsp.ofAnswer x).result.toNat)

theorem responseOf_ok (r : Byte) : responseOf (.ok r) = (0, r.toNat) := rfl

theorem rsp_of_responseOf (x : Except BlockFault Byte) :
    Rsp.ofAnswer x = ⟨true, BitVec.ofNat 8 (responseOf x).1, BitVec.ofNat 8 (responseOf x).2⟩ := by
  cases x <;> simp [responseOf, Rsp.ofAnswer, Rsp.ok, Rsp.ofFault]

theorem responseOf_lt (x : Except BlockFault Byte) : (responseOf x).1 < 256 ∧ (responseOf x).2 < 256 :=
  ⟨BitVec.isLt _, BitVec.isLt _⟩

/-- The response of an insert of `v` whose value test is `tooLarge`. -/
theorem insertResponse_eq {fd : FieldDesc} (hvalid : fd.valid = true) {tooLarge : Bool} {x : Except BlockFault Byte}
    {data v : Byte}
    (h : (tooLarge = true ∧ x = .error .valueOutOfRange) ∨
      (tooLarge = false ∧ v.toNat < 2 ^ fd.width ∧ x = .ok (insertBits data fd v))) :
    insertResponse tooLarge data.toNat fd.index fd.width v.toNat = responseOf x := by
  rcases h with ⟨rfl, rfl⟩ | ⟨rfl, hv, rfl⟩
  · rfl
  · rw [responseOf_ok, insertBits_toNat hvalid hv]
    rfl

theorem insertResponse_numeric {fd : FieldDesc} (hvalid : fd.valid = true) (data v : Byte) :
    insertResponse (2 ^ fd.width ≤ v.toNat) data.toNat fd.index fd.width v.toNat =
      responseOf (insertNumeric data fd v) := by
  apply insertResponse_eq hvalid
  rcases insertNumeric_cases data fd v with ⟨hle, hok⟩ | ⟨hlt, herror⟩
  · have hv := (fd.le_mask_iff _).1 hle
    exact .inr ⟨decide_eq_false hv.not_ge, hv, hok⟩
  · exact .inl ⟨decide_eq_true (not_lt.1 ((fd.le_mask_iff _).not.1 hlt.not_ge)), herror⟩

theorem insertResponse_string {fd : FieldDesc} (hvalid : fd.valid = true) (data : Byte) {str : BitString}
    (hstr : str.wellFormed = true) :
    insertResponse (fd.width < str.len) data.toNat fd.index fd.width str.bits.toNat =
      responseOf (insertString data fd str) := by
  apply insertResponse_eq hvalid
  rcases insertString_cases data fd str with ⟨hle, hok⟩ | ⟨hlt, herror⟩
  · have hv := (BitString.bits_lt_of_wellFormed hstr).trans_le (Nat.pow_le_pow_right two_pos hle)
    exact .inr ⟨decide_eq_false hle.not_gt, hv, hok⟩
  · exact .inl ⟨decide_eq_true hlt, herror⟩

/-! ## The lookups as filters -/

/-- The first entry that a filter by key number keeps is the one a search by key finds. -/
theorem head?_filter_toNat_key {α : Type} (key : α → Byte) (l : List α) (k : Byte) :
    (l.filter fun e => (key e).toNat = k.toNat).head? = l.find? fun e => key e == k := by
  rw [List.head?_filter]
  refine congrArg (fun p => l.find? p) (funext fun e => ?_)
  rw [Bool.eq_iff_iff]
  simp [BitVec.toNat_inj]

theorem head?_layouts (sch : Schema) (rk : Byte) :
    (layouts sch rk.toNat).head? = (sch.find? fun e => e.key == rk).map RegisterEntry.layout := by
  rw [layouts, List.head?_map, head?_filter_toNat_key RegisterEntry.key]

theorem head?_descs (l : RegisterLayout) (fk : Byte) :
    (descs l fk.toNat).head? = (l.find? fun e => e.key == fk).map FieldEntry.desc := by
  rw [descs, List.head?_map, head?_filter_toNat_key FieldEntry.key]

/-- LAY's lookup: no layout, or the one at the front of the reference's list. -/
theorem layouts_cases (sch : Schema) (rk : Byte) :
    (layouts sch rk.toNat = [] ∧ layoutFor sch rk = .error .unknownRegister) ∨
    (∃ l rest, layouts sch rk.toNat = l :: rest ∧ layoutFor sch rk = .ok l) := by
  have hhead := head?_layouts sch rk
  cases hfind : sch.find? fun e => e.key == rk with
  | none =>
    rw [hfind] at hhead
    exact .inl ⟨List.head?_eq_none_iff.1 hhead, by rw [layoutFor, hfind]⟩
  | some e =>
    rw [hfind] at hhead
    obtain ⟨rest, hrest⟩ := List.head?_eq_some_iff.1 hhead
    exact .inr ⟨e.layout, rest, hrest, by rw [layoutFor, hfind]⟩

theorem descs_cases {sch : Schema} {rk : Byte} {l : RegisterLayout} (hl : layoutFor sch rk = .ok l) (fk : Byte) :
    (descs l fk.toNat = [] ∧ fieldIn sch rk fk = .error .unknownField) ∨
    (∃ fd rest, descs l fk.toNat = fd :: rest ∧ fieldIn sch rk fk = .ok fd) := by
  have hhead := head?_descs l fk
  cases hfind : l.find? fun e => e.key == fk with
  | none =>
    rw [hfind] at hhead
    exact .inl ⟨List.head?_eq_none_iff.1 hhead, by simp only [fieldIn, hl, hfind]⟩
  | some e =>
    rw [hfind] at hhead
    obtain ⟨rest, hrest⟩ := List.head?_eq_some_iff.1 hhead
    exact .inr ⟨e.desc, rest, hrest, by simp only [fieldIn, hl, hfind]⟩

/-- What the reference does through the schema is what follows the block's lookup, if both agree on valid descriptors. -/
theorem throughSchema_eq {sch : Schema} (hwf : sch.wf = true) (rk fk : Byte) {use : FieldDesc → Response}
    {act : FieldDesc → Except BlockFault Byte} (h : ∀ fd, fd.valid = true → use fd = responseOf (act fd)) :
    throughSchema sch rk.toNat fk.toNat use = responseOf ((fieldIn sch rk fk).bind act) := by
  rw [throughSchema]
  rcases layouts_cases sch rk with ⟨hnone, hl⟩ | ⟨l, rest, hsome, hl⟩
  · rw [hnone, fieldIn, hl]
    rfl
  · rw [hsome]
    rcases descs_cases hl fk with ⟨hnone, hf⟩ | ⟨fd, rest, hsome, hf⟩
    · rw [hf]
      simp only [hnone]
      rfl
    · rw [hf]
      simp only [hsome, h fd (valid_of_fieldIn hwf hf)]
      rfl

/-- What the reference does with a presented descriptor is what follows the block's check. -/
theorem direct_eq {fd : FieldDesc} (hfd : fd.presentable = true) {use : Nat → Nat → Response}
    {x : Except BlockFault Byte} (h : fd.valid = true → use fd.index fd.width = responseOf x) :
    direct (byteOfFd fd).toNat use = responseOf (if fd.valid then x else .error .invalidFieldSpec) := by
  have hback : FieldDesc.mk ((byteOfFd fd).toNat / 16) ((byteOfFd fd).toNat % 16) = fd := by
    rw [← fdOfByte_eq, fdOfByte_byteOfFd hfd]
  obtain ⟨i, w⟩ := fd
  obtain ⟨hi, hw⟩ := FieldDesc.mk.inj hback
  rw [direct, hi, hw]
  show (if FieldDesc.valid ⟨i, w⟩ = true then _ else _) = _
  split
  next hvalid => exact h hvalid
  next => rfl

/-! ## The reference function -/

theorem fieldA_toNat (w : Request) : fieldA w.toNat = (unpackRequest w).a.toNat := by
  simp only [fieldA, unpackRequest, BitVec.extractLsb'_toNat, Nat.shiftRight_eq_div_pow]

theorem response_of_illegal {w : Request} {r : IllegalReason} (h : decode w = .error r) (sch : Schema) :
    response sch w.toNat = responseOf (answerTo sch w) := by
  rw [response, if_pos ((illegal_iff_decode_eq_error w).2 ⟨r, h⟩), answerTo, h]
  rfl

/-- LAY's count fits the byte, a well-formed layout having at most 8 entries. -/
theorem response_lay {sch : Schema} (hwf : sch.wf = true) (rk : Byte) :
    (match layouts sch rk.toNat with
      | [] => (3, 0)
      | l :: _ => (0, l.length)) = responseOf (answerOf sch (.lay rk)) := by
  rw [answerOf]
  rcases layouts_cases sch rk with ⟨hnone, hl⟩ | ⟨l, rest, hsome, hl⟩
  · rw [hnone, hl]
    rfl
  · rcases layoutFor_cases sch rk with ⟨e, he, -, hfound⟩ | ⟨-, hfound⟩ <;> cases hl.symm.trans hfound
    have hlength := Schema.layout_length_le hwf he
    have hcount : (BitVec.ofNat 8 e.layout.length).toNat = e.layout.length :=
      BitVec.toNat_ofNat .. ▸ Nat.mod_eq_of_lt (by omega)
    rw [hsome, hl]
    exact congrArg (Prod.mk 0) hcount.symm

/-- On a legal word the reference goes by the operation code, which is the decoded instruction's. -/
theorem response_of_decode {sch : Schema} (hwf : sch.wf = true) {w : Request} {i : Instr} (h : decode w = .ok i) :
    response sch w.toNat = responseOf (answerOf sch i) := by
  obtain ⟨rfl, hi⟩ := encode_of_decode h
  have hlegal : ¬ illegal (encode i).toNat = true := by
    rw [illegal_iff_decode_eq_error, h]
    rintro ⟨r, hr⟩
    cases hr
  rw [response, if_neg hlegal]
  simp only [op_toNat, vlen_toNat, fieldA_toNat, fieldB_toNat, data_toNat, val_toNat, unpack_encode]
  cases i with
  | ext fd data =>
    exact direct_eq hi fun _ => congrArg (Prod.mk 0) (extractBits_toNat data fd).symm
  | ins fd data val =>
    exact direct_eq hi fun hvalid => insertResponse_numeric hvalid data val
  | insb fd data str =>
    obtain ⟨hfd, hstr⟩ := Bool.and_eq_true_iff.1 hi
    refine direct_eq hfd fun hvalid => ?_
    rw [← insertResponse_string hvalid data hstr, encodeFields, BitString.len_toNat hstr]
  | lay rk => exact response_lay hwf rk
  | fld rk fk =>
    rw [answerOf_of_fieldKeys rfl]
    refine throughSchema_eq hwf rk fk fun fd hvalid => ?_
    obtain ⟨hindex, hwidth, -, -⟩ := FieldDesc.valid_bounds hvalid
    rw [onField, responseOf_ok, byteOfFd_eq_ofNat (by omega), BitVec.toNat_ofNat, Nat.mod_eq_of_lt (by omega)]
  | xfr rk fk data =>
    rw [answerOf_of_fieldKeys rfl]
    exact throughSchema_eq hwf rk fk fun fd _ => congrArg (Prod.mk 0) (extractBits_toNat data fd).symm
  | ifr rk fk data val =>
    exact throughSchema_eq hwf rk fk fun fd hvalid => insertResponse_numeric hvalid data val
  | ifrb rk fk data str =>
    refine throughSchema_eq hwf rk fk fun fd hvalid => ?_
    rw [← insertResponse_string hvalid data hi, encodeFields, BitString.len_toNat hi]

/-- Every answer of the block is the reference's response. -/
theorem response_eq {sch : Schema} (hwf : sch.wf = true) (w : Request) :
    response sch w.toNat = responseOf (answerTo sch w) := by
  cases h : decode w with
  | ok i => rw [answerTo_of_decode h, response_of_decode hwf h]
  | error r => exact response_of_illegal h sch

/-- Settles O30: the step leaves the response of its answer, and that is the reference's. -/
theorem blockIsThePureFunction : Obligations.BlockIsThePureFunction := by
  intro s w rest hwf hreq
  rw [response_eq hwf, step_request_withRsp hreq, ← rsp_of_responseOf]
  exact ⟨rfl, responseOf_lt _⟩

/-! ## A datasheet's bit numbers -/

/-- Settles O46: the descriptor is valid, and its field starts `lo` bits above the bottom. -/
theorem datasheetBitsConvert : Obligations.DatasheetBitsConvert := by
  intro hi lo byte s hle hhi
  have hstart : 8 - (7 - hi + (hi - lo + 1)) = lo := by omega
  rw [exec_ext_of_valid (FieldDesc.ofDatasheet_valid hle hhi), extractBits_eq_ofNat_extract, extract,
    FieldDesc.ofDatasheet, hstart]

end Sys2Proof.Machine
end

section
/-! PROOFS. 20_memory.md section 3: the host's access primitives, at every address in a class, in no class (U23), and on
a reference that does not resolve. -/

namespace Sys2Proof.Machine

open Reference

/-! ## Address classes -/

theorem inClass_iff (a : Byte) : inClass a ↔ addressClass a ≠ .unmentioned := by
  rw [ne_eq, addressClass_unmentioned_iff, not_not]

/-! ## What a read leaves -/

/-- `t` is `s` after the byte `d` was read at `a`, its frame sent, with `plan` left to do (20_memory.md R33). Which
registers change is the model's: none but at a strobe address (log entries 22 and 23). -/
structure AfterRead (s : State) (a d : Byte) (plan : List HostAction) (t : State) : Prop where
  sent : t.env.sent = [[0x80 ||| a, 0x00]]
  received : t.env.received = [d]
  agenda : t.env.agenda = plan
  rsp : t.rsp = s.rsp
  schema : t.schema = s.schema
  reported : t.env.reported = s.env.reported
  chip : ¬ isStrobe a → t.env.chip = s.env.chip
  configuration : a.toNat ≤ 0x2E → d = chipByte s.env a ∧ ∀ b, chipByte t.env b = chipByte s.env b
  status : 0xF0 ≤ a.toNat → ∀ b more, s.env.incoming = b :: more → d = b

/-- A status register gives the next given input (log entry 7). -/
theorem chipRead_status {e e' : Environment} {a d b : Byte} {more : List Byte} (ha : 0xF0 ≤ a.toNat)
    (hin : e.incoming = b :: more) (h : chipRead e a = some (d, e')) : d = b := by
  have hdraw : (drawByte e).1 = b := by simp [drawByte, hin]
  rcases chipRead_cases e a with ⟨hlow, -⟩ | ⟨-, hr⟩ | ⟨hstrobe, -⟩ | ⟨-, hr⟩
  · omega
  · exact (congrArg Prod.fst (Option.some.inj (hr.symm.trans h))).symm.trans hdraw
  · have := (addressClass_strobe_iff a).1 hstrobe
    omega
  · cases hr.symm.trans h

theorem afterRead_of_chipRead {s : State} {rest : List HostAction} {e : Environment} {a d : Byte}
    (h : chipRead (s.withAgenda rest).env a = some (d, e)) :
    AfterRead s a d rest ((s.withAgenda rest).withEnv { e with sent := [readByteFrame a], received := [d] }) := by
  obtain ⟨hchip, hagenda, hreported⟩ := chipRead_frame h
  refine ⟨rfl, rfl, hagenda, rfl, rfl, hreported, fun hns => ?chip, fun ha => ?configuration,
    fun ha b more hin => ?status⟩
  case chip => exact hchip.resolve_right fun ⟨hstrobe, _⟩ => hns ((addressClass_strobe_iff a).1 hstrobe)
  case configuration =>
    cases (chipRead_configuration ha _).symm.trans h
    exact ⟨rfl, fun _ => rfl⟩
  case status => exact chipRead_status (e := (s.withAgenda rest).env) ha hin h

theorem AfterRead.withAgenda {s t : State} {a d : Byte} {rest : List HostAction} (h : AfterRead s a d rest t)
    (plan : List HostAction) : AfterRead s a d plan (t.withAgenda plan) :=
  { h with agenda := rfl }

theorem busRead_eq {a : Byte} (hc : addressClass a ≠ .unmentioned) (s : State) :
    ∃ d e, chipRead s.env a = some (d, e) ∧
      busRead a s = .next (s.withEnv { e with sent := [readByteFrame a], received := [d] }) := by
  cases hr : chipRead s.env a with
  | none => exact absurd ((chipRead_isNone_iff _ _).1 hr) hc
  | some p => exact ⟨p.1, p.2, rfl, by rw [busRead, hr]⟩

/-! ## What a write leaves -/

/-- What a write can do: a configuration register takes the byte; at a status register, PATABLE or the FIFO nothing
changes; at a strobe address the chip may act; in no class there is no write. -/
theorem chipWrite_cases (e : Environment) (a v : Byte) :
    (a.toNat ≤ 0x2E ∧ chipWrite e a v = some { e with chip := Memory.write e.chip a.toNat v }) ∨
    (¬ a.toNat ≤ 0x2E ∧ ¬ isStrobe a ∧ chipWrite e a v = some e) ∨
    (isStrobe a ∧ chipWrite e a v = some (chipAction e)) ∨
    (addressClass a = .unmentioned ∧ chipWrite e a v = none) := by
  have hconf := addressClass_configuration_iff a
  have hstrobe := addressClass_strobe_iff a
  cases h : addressClass a with
  | configuration => exact .inl ⟨hconf.1 h, by rw [chipWrite, h]⟩
  | strobe => exact .inr (.inr (.inl ⟨hstrobe.1 h, by rw [chipWrite, h]⟩))
  | unmentioned => exact .inr (.inr (.inr ⟨rfl, by rw [chipWrite, h]⟩))
  | patable | fifo | status =>
    have hlow : ¬ a.toNat ≤ 0x2E := by simp [← hconf, h]
    have hns : ¬ isStrobe a := by simp [isStrobe, ← hstrobe, h]
    exact .inr (.inl ⟨hlow, hns, by rw [chipWrite, h]⟩)

/-- The registers after a write outside the strobe class (log entries 6, 9 and 24). -/
theorem chipByte_of_chipWrite {e e' : Environment} {a v : Byte} (hns : ¬ isStrobe a) (h : chipWrite e a v = some e')
    (b : Byte) : chipByte e' b = if b = a ∧ a.toNat ≤ 0x2E then v else chipByte e b := by
  rcases chipWrite_cases e a v with ⟨hlow, hw⟩ | ⟨hhigh, -, hw⟩ | ⟨hs, -⟩ | ⟨-, hw⟩
  · cases hw.symm.trans h
    rw [chipByte_write]
    simp only [hlow, and_true]
  · cases hw.symm.trans h
    simp only [hhigh, and_false, if_false]
  · exact absurd hs hns
  · cases hw.symm.trans h

/-- `t` is `s` after the write of `v` at `a`, its frame sent (20_memory.md R34). -/
structure AfterWrite (s : State) (a v : Byte) (t : State) : Prop where
  sent : t.env.sent = [[0x00 ||| a, v]]
  received : t.env.received = []
  agenda : t.env.agenda = s.env.agenda
  rsp : t.rsp = s.rsp
  reported : t.env.reported = s.env.reported
  registers : ¬ isStrobe a → ∀ b, chipByte t.env b = if b = a ∧ a.toNat ≤ 0x2E then v else chipByte s.env b

theorem busWrite_next {a : Byte} (hc : addressClass a ≠ .unmentioned) (v : Byte) (s : State) :
    ∃ t, busWrite a v s = .next t ∧ AfterWrite s a v t := by
  obtain ⟨e, hw, hbus⟩ := busWrite_eq hc v s
  obtain ⟨hagenda, hreported⟩ := chipWrite_frame hw
  exact ⟨_, hbus, rfl, rfl, hagenda, rfl, hreported, fun hns => chipByte_of_chipWrite (e' := e) hns hw⟩

/-! ## The steps of the primitives -/

theorem withAddress_int (a : Byte) (act : Byte → State → Host.Outcome State Fault Refusal) (s : State) :
    withAddress (.int a.toNat) act s = act a s := by
  rw [withAddress, resolveAddress_int]

theorem step_readByte {s : State} {a : Byte} {rest : List HostAction} (hc : addressClass a ≠ .unmentioned)
    (h : s.env.agenda = .readByte (.int a.toNat) :: rest) : ∃ d t, step s = .next t ∧ AfterRead s a d rest t := by
  obtain ⟨d, e, hr, hbus⟩ := busRead_eq hc (s.withAgenda rest)
  exact ⟨d, _, (step_cons h).trans ((withAddress_int a _ _).trans hbus), afterRead_of_chipRead hr⟩

theorem step_writeByte {s : State} {a v : Byte} {rest : List HostAction} (hc : addressClass a ≠ .unmentioned)
    (h : s.env.agenda = .writeByte (.int a.toNat) v :: rest) :
    ∃ t, step s = .next t ∧ AfterWrite (s.withAgenda rest) a v t := by
  obtain ⟨t, hbus, ht⟩ := busWrite_next hc v (s.withAgenda rest)
  exact ⟨t, (step_cons h).trans ((withAddress_int a _ _).trans hbus), ht⟩

/-- Settles O55: this is part of what a read and a write leave. -/
theorem byteAccessesCompleteInEveryClass : Obligations.ByteAccessesCompleteInEveryClass := by
  intro s a v rest hclass
  have hc := (inClass_iff a).1 hclass
  refine ⟨fun hread => ?read, fun hwrite => ?write⟩
  case read =>
    obtain ⟨d, t, hstep, ht⟩ := step_readByte hc hread
    exact ⟨t, d, hstep, ht.sent, ht.received, ht.rsp, ht.agenda, ht.chip⟩
  case write =>
    obtain ⟨t, hstep, ht⟩ := step_writeByte hc hwrite
    exact ⟨t, hstep, ht.sent, ht.received, ht.rsp, ht.agenda, ht.registers⟩

/-- Settles O47: the write stores the byte, and the read finds it and changes nothing. -/
theorem readAfterWriteOfAConfigurationRegister : Obligations.ReadAfterWriteOfAConfigurationRegister := by
  intro s a v rest ha hplan
  have hc : addressClass a ≠ .unmentioned := (inClass_iff a).1 (.inl ha)
  have hns : ¬ isStrobe a := fun hs => by omega
  obtain ⟨t, hwrite, ht⟩ := step_writeByte hc hplan
  obtain ⟨d, u, hread, hu⟩ := step_readByte hc ht.agenda
  obtain ⟨hd, hsame⟩ := hu.configuration ha
  have hheld := ht.registers hns
  have hdv : d = v := hd.trans ((hheld a).trans (if_pos ⟨rfl, ha⟩))
  refine ⟨t, u, hwrite, hread, ht.sent, ht.received, hu.sent, hdv ▸ hu.received, hu.rsp.trans ht.rsp, hu.agenda,
    fun b hb => ?_⟩
  exact (hsame b).trans ((hheld b).trans (if_neg fun hba => hb hba.1))

/-! ## Strobes and bursts -/

theorem busStrobe_eq {a : Byte} (hc : addressClass a ≠ .unmentioned) (s : State) :
    ∃ e, chipWrite s.env a 0x00 = some e ∧ busStrobe a s = .next (s.withEnv
      { (drawBytes 2 e).2 with sent := [strobeFrame a], received := (drawBytes 2 e).1 }) := by
  cases hw : chipWrite s.env a 0x00 with
  | none => exact absurd ((chipWrite_isNone_iff _ _ _).1 hw) hc
  | some e => exact ⟨e, rfl, by rw [busStrobe, hw]⟩

theorem busReadBurst_eq {a : Byte} (hc : addressClass a ≠ .unmentioned) (n : Nat) (s : State) :
    busReadBurst a n s = .next (s.withEnv { (drawBytes n s.env).2 with
      sent := readBurstCommands a n, received := (drawBytes n s.env).1 }) := by
  unfold busReadBurst
  split
  case h_6 h => exact absurd h hc
  all_goals rfl

theorem busWriteBurst_eq {a : Byte} (hc : addressClass a ≠ .unmentioned) (data : List Byte) (s : State) :
    ∃ e, chipWriteBurst s.env a data = some e ∧
      busWriteBurst a data s = .next (s.withEnv { e with sent := [writeBurstFrame a data], received := [] }) := by
  cases hw : chipWriteBurst s.env a data with
  | none => exact absurd ((chipWriteBurst_isNone_iff _ _ _).1 hw) hc
  | some e => exact ⟨e, rfl, by rw [busWriteBurst, hw]⟩

/-- Where no stepped address passes 0xFF, the command bytes are those of 20_memory.md R36. -/
theorem readBurstCommands_eq {a : Byte} {n : Nat} (h : a.toNat + 8 * n ≤ 0x107) : readBurstCommands a n =
    (List.range n).map fun k => [0xC0 ||| BitVec.ofNat 8 (a.toNat + 8 * k)] := by
  refine List.map_congr_left fun k hk => ?_
  have hlt := List.mem_range.1 hk
  rw [readBurstAddress, if_pos (by omega), commandByte]
  rfl

/-- Settles O49: each primitive completes with its frame, and a burst read's or a strobe's bytes are drawn. -/
theorem busFrames : Obligations.BusFrames := by
  refine ⟨fun s a rest hclass hplan => ?strobe, fun s a n rest hn hclass hplan => ?readBurst,
    fun s a data rest hclass hplan => ?writeBurst⟩ <;> have hc := (inClass_iff a).1 hclass
  case strobe =>
    obtain ⟨e, hw, hbus⟩ := busStrobe_eq hc (s.withAgenda rest)
    obtain ⟨hagenda, -⟩ := chipWrite_frame hw
    exact ⟨_, (step_cons hplan).trans ((withAddress_int a _ _).trans hbus), rfl, drawBytes_length 2 e,
      (drawBytes_agenda 2 e).trans hagenda⟩
  case readBurst =>
    exact ⟨_, (step_cons hplan).trans ((withAddress_int a _ _).trans (busReadBurst_eq hc n _)), drawBytes_length n _,
      drawBytes_agenda n _, readBurstCommands_eq hn⟩
  case writeBurst =>
    obtain ⟨e, hw, hbus⟩ := busWriteBurst_eq hc data (s.withAgenda rest)
    obtain ⟨hagenda, -⟩ := chipWriteBurst_frame hw
    exact ⟨_, (step_cons hplan).trans ((withAddress_int a _ _).trans hbus), rfl, rfl, hagenda⟩

/-! ## References -/

theorem resolveAddress_of_mem {names : NameTable} (hn : (names.map Prod.fst).Nodup) {x : String} {a : Byte}
    (h : (x, a) ∈ names) : resolveAddress names (.name x) = .ok a := by
  cases hfind : names.find? fun p => p.1 == x with
  | none => simpa using List.find?_eq_none.1 hfind (x, a) h
  | some p =>
    have hkey : p.1 = x := by simpa using List.find?_some hfind
    cases List.inj_on_of_nodup_map hn (List.mem_of_find?_eq_some hfind) h hkey
    simp only [resolveAddress, hfind]

theorem resolveAddress_of_absent {names : NameTable} {x : String} (h : x ∉ names.map Prod.fst) :
    resolveAddress names (.name x) = .error .unknownName := by
  have hfind : names.find? (fun p => p.1 == x) = none := by
    rw [List.find?_eq_none]
    intro p hp hkey
    exact h (List.mem_map.2 ⟨p, hp, by simpa using hkey⟩)
  simp only [resolveAddress, hfind]

theorem withAddress_error {ref : HostRef} {s : State} {f : HostFault} (h : resolveAddress s.env.names ref = .error f)
    (act : Byte → State → Host.Outcome State Fault Refusal) : withAddress ref act s = .next (report s f) := by
  rw [withAddress, h]

/-- Settles O48: integers by their range, names by the search in the table; a primitive whose reference does not resolve
only reports. -/
theorem addressesResolveOrAreReported : Obligations.AddressesResolveOrAreReported := by
  refine ⟨fun names n hn => ?inRange, fun names n hn => if_neg (by omega), fun names x a hn => resolveAddress_of_mem hn,
    fun names x hx => ⟨_, resolveAddress_of_absent hx⟩, fun _ => rfl,
    fun s ref f act v n data rest hf hact hplan => ?reported⟩
  case inRange => exact if_pos ⟨by omega, by omega⟩
  case reported =>
    have hreport := withAddress_error (s := s.withAgenda rest) hf
    rw [step_cons hplan]
    simp only [List.mem_cons, List.not_mem_nil, or_false] at hact
    rcases hact with rfl | rfl | rfl | rfl | rfl <;> exact hreport _

/-! ## Addresses in no class -/

section
variable {a : Byte} (hno : addressClass a = .unmentioned) (s : State)
include hno

theorem busRead_refused : busRead a s = .refused (.chipReadNotGiven a) := by
  rw [busRead, (chipRead_isNone_iff _ _).2 hno]

theorem readThen_refused (next : Byte → List HostAction) : readThen a next s = .refused (.chipReadNotGiven a) := by
  rw [readThen, (chipRead_isNone_iff _ _).2 hno]

theorem busReadBurst_refused (n : Nat) : busReadBurst a n s = .refused (.chipReadNotGiven a) := by
  rw [busReadBurst, hno]

theorem busWrite_refused (v : Byte) : busWrite a v s = .refused (.chipWriteNotGiven a) := by
  rw [busWrite, (chipWrite_isNone_iff _ _ _).2 hno]

theorem busStrobe_refused : busStrobe a s = .refused (.chipWriteNotGiven a) := by
  rw [busStrobe, (chipWrite_isNone_iff _ _ _).2 hno]

theorem busWriteBurst_refused (data : List Byte) : busWriteBurst a data s = .refused (.chipWriteNotGiven a) := by
  rw [busWriteBurst, (chipWriteBurst_isNone_iff _ _ _).2 hno]

end

/-- The host's answer to a response is to go on or to report, so it completes where going on does. -/
theorem unlessFault_completes {act : State → Host.Outcome State Fault Refusal} {s : State}
    (h : ∃ t, act s = .next t) : ∃ t, unlessFault act s = .next t := by
  rcases unlessFault_cases act s with ⟨-, hgo⟩ | ⟨-, hreport⟩
  · rw [hgo]
    exact h
  · exact ⟨_, hreport⟩

theorem readThen_completes {a : Byte} (hc : addressClass a ≠ .unmentioned) (next : Byte → List HostAction) (s : State) :
    ∃ t, readThen a next s = .next t := by
  obtain ⟨_, _, -, h⟩ := readThen_eq hc next s
  exact ⟨_, h⟩

/-- Settles O56: in no class the chip gives no byte and takes none; in a class each access and each part of RDF, of WRF
and of the polling loop ends in a next state. -/
theorem accessesInNoClassAreRefused : Obligations.AccessesInNoClassAreRefused := by
  intro s a v fk want vlen n data act rest hplan
  rw [step_cons hplan]
  generalize s.withAgenda rest = s'
  refine ⟨fun hout => ⟨fun hact => ?reads, fun hact => ?writes⟩, fun hclass hact => ?completes⟩ <;>
    simp only [List.mem_cons, List.not_mem_nil, or_false] at hact
  case reads =>
    have hno := (addressClass_unmentioned_iff a).2 hout
    rcases hact with rfl | rfl | rfl | rfl | rfl
    · exact (withAddress_int a _ s').trans (busRead_refused hno s')
    · exact (withAddress_int a _ s').trans (busReadBurst_refused hno s' n)
    all_goals exact readThen_refused hno s' _
  case writes =>
    have hno := (addressClass_unmentioned_iff a).2 hout
    rcases hact with rfl | rfl | rfl <;> rw [hostAct, withAddress_int]
    · exact busWrite_refused hno s' v
    · exact busStrobe_refused hno s'
    · exact busWriteBurst_refused hno s' data
  case completes =>
    have hc := (inClass_iff a).1 hclass
    rcases hact with rfl | rfl | rfl | rfl | rfl | rfl | rfl | rfl | rfl | rfl | rfl <;> rw [hostAct]
    · obtain ⟨_, _, -, h⟩ := busRead_eq hc s'
      exact ⟨_, (withAddress_int a _ s').trans h⟩
    · exact ⟨_, (withAddress_int a _ s').trans (busReadBurst_eq hc n s')⟩
    · exact readThen_completes hc _ s'
    · exact readThen_completes hc _ s'
    · exact readThen_completes hc _ s'
    · obtain ⟨t, h, -⟩ := busWrite_next hc v s'
      exact ⟨t, (withAddress_int a _ s').trans h⟩
    · obtain ⟨_, -, h⟩ := busStrobe_eq hc s'
      exact ⟨_, (withAddress_int a _ s').trans h⟩
    · obtain ⟨_, -, h⟩ := busWriteBurst_eq hc data s'
      exact ⟨_, (withAddress_int a _ s').trans h⟩
    · obtain ⟨t, h, -⟩ := busWrite_next hc s'.rsp.result s'
      exact unlessFault_completes ⟨t, h⟩
    · cases n <;> exact ⟨_, rfl⟩
    · refine unlessFault_completes ?_
      split <;> exact ⟨_, rfl⟩

end Sys2Proof.Machine
end

section
/-! PROOFS. 42_register_forms.md section 4: RDF and WRF, one step after the other. -/

namespace Sys2Proof.Machine

open Reference

/-! ## The first two steps -/

/-- The first step reads, and puts the request made from the byte, with what follows it, before the plan. -/
theorem step_readThen {s : State} {m : HostAction} {rk : Byte} {next : Byte → List HostAction}
    {rest : List HostAction} (hc : addressClass rk ≠ .unmentioned) (hm : ∀ s, hostAct m s = readThen rk next s)
    (h : s.env.agenda = m :: rest) : ∃ d t, step s = .next t ∧ AfterRead s rk d (next d ++ rest) t := by
  obtain ⟨d, e, hr, hread⟩ := readThen_eq hc next (s.withAgenda rest)
  have hafter := afterRead_of_chipRead hr
  refine ⟨d, _, ((step_cons h).trans (hm _)).trans hread, ?_⟩
  rw [doNext, hafter.agenda]
  exact hafter.withAgenda _

/-- `t` is `s` after the read of `d` at `rk`, and `u` is `t` after the answer `x` to the request made from `d`, with
`plan` left to do. -/
structure AfterAnswer (s : State) (rk d : Byte) (x : Except BlockFault Byte) (plan : List HostAction) (t u : State) :
    Prop where
  read : AfterRead s rk d t.env.agenda t
  first : step s = .next t
  second : step t = .next u
  answered : u = (t.withAgenda plan).withRsp (Rsp.ofAnswer x)

section
variable {s t u : State} {rk d : Byte} {x : Except BlockFault Byte} {plan : List HostAction}
  (h : AfterAnswer s rk d x plan t u)
include h

theorem AfterAnswer.agenda : u.env.agenda = plan := by
  rw [h.answered]
  rfl

theorem AfterAnswer.rsp : u.rsp = Rsp.ofAnswer x := by
  rw [h.answered]
  rfl

theorem AfterAnswer.chipByte_eq (b : Byte) : chipByte u.env b = chipByte t.env b := by
  rw [h.answered]
  rfl

end

/-- The first two steps of RDF and of WRF (42_register_forms.md R94, R95). -/
theorem readThen_answers {s : State} {m last : HostAction} {rk : Byte} {w : Byte → Request} {rest : List HostAction}
    (hc : addressClass rk ≠ .unmentioned) (hm : ∀ s, hostAct m s = readThen rk (fun d => [.request (w d), last]) s)
    (h : s.env.agenda = m :: rest) :
    ∃ d t u, AfterAnswer s rk d (answerTo s.schema (w d)) (last :: rest) t u := by
  obtain ⟨d, t, hstep, ht⟩ := step_readThen hc hm h
  have hrequest := step_request_withRsp (rest := last :: rest) ht.agenda
  rw [ht.schema] at hrequest
  exact ⟨d, t, _, ht.agenda ▸ ht, hstep, hrequest, rfl⟩

/-! ## The requests -/

theorem answerTo_encode {i : Instr} (h : i.wellFormed = true) (sch : Schema) :
    answerTo sch (encode i) = answerOf sch i :=
  answerTo_of_decode (decode_encode h) sch

theorem exec_eq_withRsp (i : Instr) (s : State) :
    exec i s = .next (s.withRsp (Rsp.ofAnswer (answerOf s.schema i))) := by
  rw [exec_eq, answer_eq_withRsp]

/-! ## WRF in both its forms -/

/-- `m` is a form of WRF at `rk`, whose request on the byte `d` is `w d` (42_register_forms.md R95). -/
def WritesField (rk : Byte) (w : Byte → Request) (m : HostAction) : Prop :=
  ∀ s, hostAct m s = readThen rk (fun d => [.request (w d), .writeBack rk]) s

theorem wrf_writesField (rk fk v : Byte) : WritesField rk (fun d => encode (.ifr rk fk d v)) (.wrf rk fk v) :=
  fun _ => rfl

theorem wrfb_writesField (rk fk v : Byte) (vlen : Nibble) :
    WritesField rk (fun d => packRequest ⟨8, vlen, rk, fk, d, v⟩) (.wrfb rk fk vlen v) :=
  fun _ => rfl


/-- What the last part of WRF can do: write the result back, or report the fault and write nothing. -/
theorem step_writeBack_cases {s : State} {rk : Byte} {rest : List HostAction} (hc : addressClass rk ≠ .unmentioned)
    (h : s.env.agenda = .writeBack rk :: rest) :
    (s.rsp.status = statusOk ∧ ∃ t, step s = .next t ∧ AfterWrite (s.withAgenda rest) rk s.rsp.result t) ∨
    (s.rsp.status ≠ statusOk ∧ step s = .next (report (s.withAgenda rest) (.blockFault s.rsp.status))) := by
  rw [step_cons h]
  rcases unlessFault_cases (busWrite rk s.rsp.result) (s.withAgenda rest) with ⟨hok, hgo⟩ | ⟨hfault, hreport⟩
  · obtain ⟨t, hwrite, ht⟩ := busWrite_next hc s.rsp.result (s.withAgenda rest)
    exact .inl ⟨hok, t, hgo.trans hwrite, ht⟩
  · exact .inr ⟨hfault, hreport⟩

/-- Settles O50: XFR's request decodes to XFR, and the last step tests its status. -/
theorem readFieldMacro : Obligations.ReadFieldMacro := by
  intro s rk fk rest hclass hplan
  obtain ⟨d, t, u, hu⟩ := readThen_answers ((inClass_iff rk).1 hclass) (fun _ => rfl) hplan
  rw [answerTo_encode rfl] at hu
  obtain ⟨ht, hfirst, hsecond, rfl⟩ := hu
  have hbyte (hlow : rk.toNat ≤ 0x2E) : d = chipByte s.env rk := by
    obtain ⟨hd, -⟩ := ht.configuration hlow
    exact hd
  rcases step_rdfResult_cases (s := (t.withAgenda _).withRsp _) rfl with ⟨hok, hthird⟩ | ⟨hfault, hthird⟩
  · exact ⟨d, t, _, _, _, hfirst, hsecond, hthird, ht.sent, ht.received, exec_eq_withRsp _ s, rfl, rfl, rfl,
      fun _ => ht.reported, fun hne => absurd hok hne, ht.chip, hbyte, ht.status⟩
  · exact ⟨d, t, _, _, _, hfirst, hsecond, hthird, ht.sent, ht.received, exec_eq_withRsp _ s, rfl, rfl, rfl,
      fun hok => absurd hok hfault, fun _ => rfl, ht.chip, hbyte, ht.status⟩

/-- Settles O57: WRF's request decodes to IFR, or to IFRB with the string it was given, and the last step tests the
answer's status. -/
theorem writeFieldMacroSteps : Obligations.WriteFieldMacroSteps := by
  intro s rk fk v str rest i hclass hstr hplan
  have hc := (inClass_iff rk).1 hclass
  obtain ⟨m, w, hm, hplan, hw⟩ : ∃ m w, WritesField rk w m ∧ s.env.agenda = m :: rest ∧
      ∀ d, answerTo s.schema (w d) = answerOf s.schema (i d) := by
    rcases hplan with ⟨hplan, rfl⟩ | ⟨hplan, rfl⟩
    · exact ⟨_, _, wrf_writesField rk fk v, hplan, fun d => answerTo_encode rfl s.schema⟩
    · exact ⟨_, _, wrfb_writesField rk fk _ _, hplan,
        fun d => answerTo_encode (i := .ifrb rk fk d str) hstr s.schema⟩
  obtain ⟨d, t, u, hu⟩ := readThen_answers hc hm hplan
  rw [hw] at hu
  obtain ⟨ht, hfirst, hsecond, rfl⟩ := hu
  rcases step_writeBack_cases (s := (t.withAgenda _).withRsp _) hc rfl with ⟨hok, r, hthird, hr⟩ | ⟨hfault, hthird⟩
  · exact ⟨d, t, _, r, _, hfirst, hsecond, hthird, ht.sent, ht.received, exec_eq_withRsp _ s, rfl, hr.rsp, hr.agenda,
      fun _ => ⟨hr.sent, hr.received, hr.reported.trans ht.reported⟩, fun hne => absurd hok hne⟩
  · exact ⟨d, t, _, _, _, hfirst, hsecond, hthird, ht.sent, ht.received, exec_eq_withRsp _ s, rfl, rfl, rfl,
      fun hok => absurd hok hfault, fun _ => ⟨ht.sent, rfl⟩⟩

theorem core_run_three {s t u r : State} (h1 : step s = .next t) (h2 : step t = .next u) (h3 : step u = .next r) :
    core.run 3 s = .next r := by
  rw [core_run_succ h1, core_run_succ h2, core_run_succ h3, core_run_zero]

/-- Settles O52: on a fault the last step only reports, so the frame and the registers are as the read left them. -/
theorem writeFieldMacroWritesNothingOnAFault : Obligations.WriteFieldMacroWritesNothingOnAFault := by
  intro s rk fk v vlen rest hclass hplan
  have hc := (inClass_iff rk).1 hclass
  obtain ⟨m, w, hm, hplan⟩ : ∃ m w, WritesField rk w m ∧ s.env.agenda = m :: rest :=
    hplan.elim (fun h => ⟨_, _, wrf_writesField rk fk v, h⟩) fun h => ⟨_, _, wrfb_writesField rk fk v vlen, h⟩
  obtain ⟨d, t, u, ht, hfirst, hsecond, rfl⟩ := readThen_answers hc hm hplan
  rcases step_writeBack_cases (s := (t.withAgenda _).withRsp _) hc rfl with ⟨hok, r, hthird, hr⟩ | ⟨hfault, hthird⟩
  · exact ⟨r, core_run_three hfirst hsecond hthird, hr.agenda,
      fun hne => absurd ((congrArg Rsp.status hr.rsp).trans hok) hne⟩
  · exact ⟨_, core_run_three hfirst hsecond hthird, rfl, fun _ => ⟨ht.sent, rfl, ht.chip⟩⟩

/-! ## WRF on a configuration register -/

/-- The request of WRF, with a number or a string that fits, is answered with the byte whose field is the value. -/
theorem answerTo_wrf_fits {sch : Schema} (hwf : sch.wf = true) {rk fk d v : Byte} {fd : FieldDesc}
    (h : Holds sch rk fk fd) (hv : v.toNat < 2 ^ fd.width) :
    answerTo sch (encode (.ifr rk fk d v)) = .ok (insertBits d fd v) := by
  rw [answerTo_encode rfl, answerOf, (fieldIn_of_holds hwf h).1]
  exact if_neg ((fd.le_mask_iff _).2 hv).not_gt

theorem answerTo_wrfb_fits {sch : Schema} (hwf : sch.wf = true) {rk fk d v : Byte} {vlen : Nibble} {fd : FieldDesc}
    (h : Holds sch rk fk fd) (hpos : 1 ≤ vlen.toNat) (hlen : vlen.toNat ≤ fd.width) (hv : v.toNat < 2 ^ vlen.toNat) :
    answerTo sch (packRequest ⟨8, vlen, rk, fk, d, v⟩) = .ok (insertBits d fd v) := by
  obtain ⟨hfield, hvalid⟩ := fieldIn_of_holds hwf h
  obtain ⟨-, hwidth, -, -⟩ := FieldDesc.valid_bounds hvalid
  have hstr : (BitString.mk vlen.toNat v).wellFormed = true :=
    (BitString.wellFormed_iff _).2 ⟨hpos, hlen.trans (by omega), hv⟩
  have hword : packRequest ⟨8, vlen, rk, fk, d, v⟩ = encode (.ifrb rk fk d ⟨vlen.toNat, v⟩) := by
    simp [encode, encodeFields]
  rw [hword, answerTo_encode (i := .ifrb rk fk d _) hstr, answerOf, hfield]
  exact if_neg hlen.not_gt

/-- Settles O51: the byte written back is an insert into the byte the register held, so the codec's laws give the field
and its neighbours; no other register is written. -/
theorem writeFieldMacroDisturbsNothingElse : Obligations.WriteFieldMacroDisturbsNothingElse := by
  intro s rk fk v vlen fd rest hwf hlow hholds hplan
  have hc : addressClass rk ≠ .unmentioned := (inClass_iff rk).1 (.inl hlow)
  have hns : ¬ isStrobe rk := fun hs => by omega
  obtain ⟨hfield, hvalid⟩ := fieldIn_of_holds hwf hholds
  obtain ⟨hv, m, w, hm, hplan, hw⟩ : v.toNat < 2 ^ fd.width ∧ ∃ m w,
      WritesField rk w m ∧ s.env.agenda = m :: rest ∧ ∀ d, answerTo s.schema (w d) = .ok (insertBits d fd v) := by
    rcases hplan with ⟨hplan, hv⟩ | ⟨hplan, hpos, hlen, hv⟩
    · exact ⟨hv, _, _, wrf_writesField rk fk v, hplan, fun d => answerTo_wrf_fits hwf hholds hv⟩
    · exact ⟨hv.trans_le (Nat.pow_le_pow_right two_pos hlen), _, _, wrfb_writesField rk fk v vlen, hplan,
        fun d => answerTo_wrfb_fits hwf hholds hpos hlen hv⟩
  obtain ⟨d, t, u, hu⟩ := readThen_answers hc hm hplan
  rw [hw] at hu
  obtain ⟨rfl, hheld⟩ := hu.read.configuration hlow
  have hrsp : u.rsp = Rsp.ok (insertBits (chipByte s.env rk) fd v) := hu.rsp
  rcases step_writeBack_cases hc hu.agenda with ⟨-, r, hthird, hr⟩ | ⟨hfault, -⟩
  · have hregisters := hr.registers hns
    rw [hrsp] at hregisters
    have hwritten : chipByte r.env rk = insertBits (chipByte s.env rk) fd v :=
      (hregisters rk).trans (if_pos ⟨rfl, hlow⟩)
    have hinsert : IsInsert (chipByte s.env rk) fd (chipByte r.env rk) := ⟨hvalid, v, hv, hwritten⟩
    have hkept {b : Byte} (hb : b ≠ rk) : chipByte r.env b = chipByte u.env b :=
      (hregisters b).trans (if_neg fun h => hb h.1)
    refine ⟨r, core_run_three hu.first hu.second hthird, hr.agenda, congrArg Rsp.status (hr.rsp.trans hrsp), ?field,
      fun gk hne => exec_xfr_of_isInsert hwf hne.symm hholds hinsert,
      fun b hb => ((hkept hb).trans (hu.chipByte_eq b)).trans (hheld b)⟩
    case field =>
      apply exec_of_answerOf_ok
      rw [answerOf, hfield, hwritten]
      exact congrArg Except.ok (extractBits_insertBits_same hv hvalid _)
  · rw [hrsp] at hfault
    exact absurd rfl hfault

end Sys2Proof.Machine
end

section
/-! PROOFS. 42_register_forms.md section 5: the bounded polling loop, turn by turn. -/

namespace Sys2Proof.Machine

open Reference

/-- A turn up to its comparison: the loop's own step, then the three steps of RDF. -/
theorem run_pollTurn {s : State} {rk fk want : Byte} {n : Nat} {rest : List HostAction}
    (hc : addressClass rk ≠ .unmentioned) (h : s.env.agenda = .poll rk fk want (n + 1) :: rest) :
    ∃ u, core.run 4 s = .next u ∧ u.env.agenda = .pollCheck rk fk want n :: rest ∧ u.schema = s.schema ∧
      (u.env.chip = s.env.chip ∨ addressClass rk = .strobe) ∧
      (u.rsp.status = statusOk → u.env.reported = s.env.reported) := by
  have hturn : step s = .next (s.withAgenda (.rdf rk fk :: .pollCheck rk fk want n :: rest)) := step_cons h
  obtain ⟨u, hrun, hagenda, hschema, hchip, hreported, -⟩ :=
    run_rdf (s := s.withAgenda (.rdf rk fk :: .pollCheck rk fk want n :: rest)) hc rfl
  exact ⟨u, (core_run_succ hturn 3).trans hrun, hagenda, hschema, hchip, hreported⟩

/-- What the comparison can do: leave with the wanted value, repeat, or report the block's fault. -/
theorem step_pollCheck_cases {s : State} {rk fk want : Byte} {n : Nat} {rest : List HostAction}
    (h : s.env.agenda = .pollCheck rk fk want n :: rest) :
    (s.rsp.status = statusOk ∧ s.rsp.result = want ∧ step s = .next (s.withAgenda rest)) ∨
    (s.rsp.status = statusOk ∧ s.rsp.result ≠ want ∧
      step s = .next (s.withAgenda (.poll rk fk want n :: rest))) ∨
    (s.rsp.status ≠ statusOk ∧ step s = .next (report (s.withAgenda rest) (.blockFault s.rsp.status))) := by
  have hstep : step s = pollCompare rk fk want n (s.withAgenda rest) := step_cons h
  rw [hstep, pollCompare]
  rcases unlessFault_cases _ (s.withAgenda rest) with ⟨hok, hgo⟩ | ⟨hfault, hreport⟩
  · rw [hgo]
    by_cases hwant : s.rsp.result = want
    · exact .inl ⟨hok, hwant, if_pos hwant⟩
    · exact .inr (.inl ⟨hok, hwant, if_neg hwant⟩)
  · exact .inr (.inr ⟨hfault, hreport⟩)

/-- How a loop of `bound` turns, started in `s`, ended after `k` steps in `t`: with the wanted value; with Timeout after
`bound` turns, each answered OK with another value; or with the block's fault. -/
def PollEnd (s : State) (want : Byte) (bound k : Nat) (t : State) : Prop :=
  (0 < bound ∧ t.rsp.status = 0x00 ∧ t.rsp.result = want ∧ t.env.reported = s.env.reported) ∨
  (k = 5 * bound + 1 ∧ t.env.reported = some .timeout ∧
    ∀ j < bound, ∃ u, core.run (5 * j + 4) s = .next u ∧ u.rsp.status = 0x00 ∧ u.rsp.result ≠ want) ∨
  (0 < bound ∧ t.rsp.status ≠ 0x00 ∧ t.env.reported = some (.blockFault t.rsp.status))

/-- A turn answered OK with another value before a loop of `bound` turns makes a loop of `bound + 1` turns. -/
theorem PollEnd.after_turn {s u v t : State} {want : Byte} {bound k : Nat} (hrun : core.run 4 s = .next u)
    (hstep : step u = .next v) (hok : u.rsp.status = 0x00) (hother : u.rsp.result ≠ want)
    (hreported : v.env.reported = s.env.reported) (h : PollEnd v want bound k t) :
    PollEnd s want (bound + 1) (5 + k) t := by
  have hturn : core.run 5 s = .next v := (core_run_add 1 hrun).trans (core_run_succ hstep 0)
  rcases h with ⟨-, hstatus, hresult, hrep⟩ | ⟨rfl, htimeout, hturns⟩ | ⟨-, hfault, hrep⟩
  · exact .inl ⟨Nat.succ_pos _, hstatus, hresult, hrep.trans hreported⟩
  · refine .inr (.inl ⟨by omega, htimeout, fun j hj => ?_⟩)
    cases j with
    | zero => exact ⟨u, hrun, hok, hother⟩
    | succ j =>
      obtain ⟨u', hrun', hu'⟩ := hturns j (Nat.lt_of_succ_lt_succ hj)
      have hlength : 5 * (j + 1) + 4 = 5 + (5 * j + 4) := by omega
      exact ⟨u', by rw [hlength, core_run_add _ hturn, hrun'], hu'⟩
  · exact .inr (.inr ⟨Nat.succ_pos _, hfault, hrep⟩)

/-- The loop ends, by induction on the turns left. -/
theorem run_poll {rk fk want : Byte} {rest : List HostAction} (hc : addressClass rk ≠ .unmentioned) (bound : Nat) :
    ∀ {s : State}, s.env.agenda = .poll rk fk want bound :: rest →
    ∃ k ≤ 5 * bound + 1, ∃ t, core.run k s = .next t ∧ t.env.agenda = rest ∧ t.schema = s.schema ∧
      (t.env.chip = s.env.chip ∨ addressClass rk = .strobe) ∧ PollEnd s want bound k t := by
  induction bound with
  | zero =>
    intro s h
    have hstep : step s = .next (report (s.withAgenda rest) .timeout) := step_cons h
    exact ⟨1, le_rfl, _, core_run_succ hstep 0, rfl, rfl, .inl rfl, .inr (.inl ⟨rfl, rfl, nofun⟩)⟩
  | succ bound ih =>
    intro s h
    obtain ⟨u, hrun, hagenda, hschema, hchip, hreported⟩ := run_pollTurn hc h
    have hfive {v : State} (hstep : step u = .next v) : core.run 5 s = .next v :=
      (core_run_add 1 hrun).trans (core_run_succ hstep 0)
    rcases step_pollCheck_cases hagenda with ⟨hok, hwant, hstep⟩ | ⟨hok, hother, hstep⟩ | ⟨hfault, hstep⟩
    · exact ⟨5, by omega, _, hfive hstep, rfl, hschema, hchip,
        .inl ⟨Nat.succ_pos _, hok, hwant, hreported hok⟩⟩
    · obtain ⟨k, hk, t, hrest, hagenda', hschema', hchip', hend⟩ :=
        ih (s := u.withAgenda (.poll rk fk want bound :: rest)) rfl
      refine ⟨5 + k, by omega, t, (core_run_add k (hfive hstep)).trans hrest, hagenda', hschema'.trans hschema, ?_,
        hend.after_turn hrun hstep hok hother (hreported hok)⟩
      exact hchip.elim (fun hu => hchip'.imp_left fun ht => ht.trans hu) .inr
    · exact ⟨5, by omega, _, hfive hstep, rfl, hschema, hchip, .inr (.inr ⟨Nat.succ_pos _, hfault, rfl⟩)⟩

/-- Settles O58: this is how the loop ends. -/
theorem pollingTimesOutOnlyAfterEveryTurn : Obligations.PollingTimesOutOnlyAfterEveryTurn := by
  intro s rk fk want bound rest hclass hplan
  obtain ⟨k, hk, t, hrun, hagenda, hschema, -, hend⟩ := run_poll ((inClass_iff rk).1 hclass) bound hplan
  exact ⟨k, hk, t, hrun, hagenda, hschema, hend⟩

/-- Settles O53: outside the strobe class the reads change no register, and the loop ends in one of the three ways. -/
theorem pollingIsBounded : Obligations.PollingIsBounded := by
  intro s rk fk want bound rest hclass hns hplan
  obtain ⟨k, hk, t, hrun, hagenda, hschema, hchip, hend⟩ := run_poll ((inClass_iff rk).1 hclass) bound hplan
  refine ⟨k, hk, t, hrun, hagenda, hschema,
    hchip.resolve_right fun hstrobe => hns ((addressClass_strobe_iff rk).1 hstrobe), ?_⟩
  rcases hend with ⟨-, hfound⟩ | ⟨-, htimeout, -⟩ | ⟨-, hfault⟩
  · exact .inl hfound
  · exact .inr (.inl htimeout)
  · exact .inr (.inr hfault)

end Sys2Proof.Machine
end
